-- ==== Sys2Proof/Word.lean ====
section
/-! DEFINITION. The word types of micro16 and the closed sets of names its fields select from
(spec/00_scope.md R5, R8; spec/10_state.md R21; spec/30_encoding.md R88 to R90, R101). -/

namespace Sys2Proof

/-- An 8-bit value: the program counter and the `ADDR` field (R8). -/
abbrev Word8 := BitVec 8

/-- A data value: a register, a memory cell, an ALU or shifter result (R8). -/
abbrev Word16 := BitVec 16

/-- An instruction word, always read unsigned (R8). -/
abbrev Word32 := BitVec 32

/-- The sixteen slots of the register file, under the names of R21. Every 4-bit index names one of them,
so `InvalidRegisterIndex` cannot be written in an instruction (R184, decision D18). -/
inductive Reg where
  | zero | one | mone | mar
  | r4 | r5 | r6 | r7 | r8 | r9 | r10 | r11 | r12 | r13 | r14
  | mbr
deriving DecidableEq, Repr

/-- The four ALU modes (R88). -/
inductive AluMode where
  | noOp | add | bitAnd | bitNot
deriving DecidableEq, Repr

/-- The four encodings of the shifter mode: three behaviours and the spare slot (R89). -/
inductive ShMode where
  | noOp | left | right | spare
deriving DecidableEq, Repr

/-- The four condition modes (R90). -/
inductive CondMode where
  | noOp | ifNegative | ifZero | goTo
deriving DecidableEq, Repr

/-- The groups of the opcode table (R101). A nonzero word selects one row of each group but `halt`. -/
inductive Group where
  | halt | alu | sh | cond | amux | marld | wb | mem | mbrf
deriving DecidableEq, Repr

end Sys2Proof
end

