-- ==== Sys2Proof/Syntax.lean ====
section
/-! DEFINITION. The micro-operations of spec/opcode_table.json, one constructor a row, and the thirteen
fields of an instruction word (spec/30_encoding.md R84, R101). -/

namespace Sys2Proof

/-- A micro-operation: one row of the opcode table with the operand fields that row's micro-operation
reads or ignores. One word selects a row from each of eight groups at once (R101), so a word stands for
eight of these (or for `halt` alone).

Which row carries which operand field: `A` stands with the AMUX rows, `B` with the ALU rows and with
MARLD.ON, `S` with the WB rows, `ADDR` with the COND rows, `RDWR` with MEM.NONE (where it is ignored). -/
inductive Instr where
  /-- HALT, the zero word (R112). -/
  | halt
  /-- ALU.PASS (R131). -/
  | aluPass (b : Reg)
  /-- ALU.ADD (R132). -/
  | aluAdd (b : Reg)
  /-- ALU.AND (R133). -/
  | aluAnd (b : Reg)
  /-- ALU.NOT (R134). -/
  | aluNot (b : Reg)
  /-- SH.NONE (R141). -/
  | shNone
  /-- SH.LSH (R142). -/
  | shLsh
  /-- SH.RSH (R143). -/
  | shRsh
  /-- SH.SPARE3 (R144). -/
  | shSpare3
  /-- COND.NONE (R151); its `ADDR` is ignored. -/
  | condNone (addr : Word8)
  /-- COND.JN (R152). -/
  | condJn (addr : Word8)
  /-- COND.JZ (R153). -/
  | condJz (addr : Word8)
  /-- COND.GOTO (R154). -/
  | condGoto (addr : Word8)
  /-- AMUX.ABUS (R114). -/
  | amuxAbus (a : Reg)
  /-- AMUX.MAR (R114); its `A` is ignored. -/
  | amuxMar (a : Reg)
  /-- MARLD.OFF (R115). -/
  | marldOff
  /-- MARLD.ON (R115). -/
  | marldOn (b : Reg)
  /-- WB.OFF (R162, R163). -/
  | wbOff (d : Reg)
  /-- WB.ON (R161). -/
  | wbOn (d : Reg)
  /-- MEM.NONE (R170); its `RDWR` is ignored. -/
  | memNone (rdwr : Bool)
  /-- MEM.WR (R172). -/
  | memWr
  /-- MEM.RD (R171). -/
  | memRd
  /-- MBRF.0 (R94). -/
  | mbrf0
  /-- MBRF.1 (R94). -/
  | mbrf1
deriving DecidableEq, Repr

/-- The group of the opcode table a row stands in (R101). -/
def Instr.group : Instr → Group
  | .halt => .halt
  | .aluPass _ => .alu
  | .aluAdd _ => .alu
  | .aluAnd _ => .alu
  | .aluNot _ => .alu
  | .shNone => .sh
  | .shLsh => .sh
  | .shRsh => .sh
  | .shSpare3 => .sh
  | .condNone _ => .cond
  | .condJn _ => .cond
  | .condJz _ => .cond
  | .condGoto _ => .cond
  | .amuxAbus _ => .amux
  | .amuxMar _ => .amux
  | .marldOff => .marld
  | .marldOn _ => .marld
  | .wbOff _ => .wb
  | .wbOn _ => .wb
  | .memNone _ => .mem
  | .memWr => .mem
  | .memRd => .mem
  | .mbrf0 => .mbrf
  | .mbrf1 => .mbrf

/-- What decoding a word gives: the tuple of the thirteen fields of R84, under the names of R84. -/
structure Fields where
  addr : Word8
  a : Reg
  b : Reg
  s : Reg
  ens : Bool
  ms : Bool
  rdwr : Bool
  marld : Bool
  mbrf : Bool
  sh : ShMode
  alu : AluMode
  cond : CondMode
  amux : Bool
deriving DecidableEq, Repr

end Sys2Proof
end

