-- ==== Sys2Proof/WellFormed.lean ====
section
/-! DEFINITION. Which lists of micro-operations one word can select, and which field tuples stand for a word
that is executed (spec/30_encoding.md R93, R101). A single micro-operation is well-formed by its type: its
operands are a register name, an 8-bit address or a bit, and every one of them can be encoded. -/

namespace Sys2Proof

/-- The field tuple whose 32 bits are all zero: the halt sentinel, which is never decoded (R93). -/
def Fields.blank : Fields :=
  { addr := 0, a := .zero, b := .zero, s := .zero, ens := false, ms := false, rdwr := false,
    marld := false, mbrf := false, sh := .noOp, alu := .noOp, cond := .noOp, amux := false }

/-- A field tuple stands for a word that is executed exactly when it is not the halt sentinel's (R93). -/
def Fields.wf (f : Fields) : Bool := f != Fields.blank

/-- The eight rows the all-zero word would select, were it decoded (R93). -/
def blankRows : List Instr :=
  [.mbrf0, .amuxAbus .zero, .marldOff, .aluPass .zero, .shNone, .condNone 0, .wbOff .zero, .memNone false]

/-- The MAR-load row and the ALU row of one word read the same `B` field (R84). -/
def busBAgrees (marld alu : Instr) : Bool :=
  match marld, alu with
  | .marldOn b, .aluPass c => b == c
  | .marldOn b, .aluAdd c => b == c
  | .marldOn b, .aluAnd c => b == c
  | .marldOn b, .aluNot c => b == c
  | _, _ => true

/-- A list of micro-operations is what one word selects: `halt` alone, or one row of each of the eight
other groups (here in the order of the step, R110), one `B` field for the rows that read it, and not
the rows of the zero word, which halts instead (R93, R101). -/
def rowsWellFormed (rows : List Instr) : Bool :=
  match rows with
  | [i] => i == .halt
  | [x, am, ml, al, sh, c, w, me] =>
    x.group == .mbrf && am.group == .amux && ml.group == .marld && al.group == .alu && sh.group == .sh
      && c.group == .cond && w.group == .wb && me.group == .mem && busBAgrees ml al && rows != blankRows
  | _ => false

end Sys2Proof
end

