-- ==== Sys2Proof/Decode.lean ====
section
/-! DEFINITION. The BitField accessor, the bit-field decoder, the rows a word selects, and the encoder
(spec/30_encoding.md R80 to R101). Decoding never fails (R92): the only word it does not take apart is the
halt sentinel, which is tested first (R93). -/

namespace Sys2Proof

/-! ## The BitField accessor -/

/-- `get(i)`, R80. Requests outside 0..31 cannot be written (R82, decision D16). -/
def bitGet (w : Word32) (i : Fin 32) : Bool := w.getLsbD i.val

/-- `get_many(start, end)`, R81: the bits `[start, stop)` in the low-order bits of the result, which has
`stop - start` of them. Requests outside `start <= stop <= 31` cannot be written (R82, decision D16). -/
def bitGetMany (w : Word32) (start stop : Nat) (_inRange : start ≤ stop ∧ stop ≤ 31 := by decide) :
    BitVec (stop - start) :=
  w.extractLsb' start (stop - start)

/-! ## Register indices and mode numbers -/

/-- The slot a 4-bit index names (R21, R87). -/
def Reg.ofBits (v : BitVec 4) : Reg :=
  match v.toNat with
  | 0 => .zero
  | 1 => .one
  | 2 => .mone
  | 3 => .mar
  | 4 => .r4
  | 5 => .r5
  | 6 => .r6
  | 7 => .r7
  | 8 => .r8
  | 9 => .r9
  | 10 => .r10
  | 11 => .r11
  | 12 => .r12
  | 13 => .r13
  | 14 => .r14
  | _ => .mbr

/-- The index of a slot (R21). -/
def Reg.toBits : Reg → BitVec 4
  | .zero => 0
  | .one => 1
  | .mone => 2
  | .mar => 3
  | .r4 => 4
  | .r5 => 5
  | .r6 => 6
  | .r7 => 7
  | .r8 => 8
  | .r9 => 9
  | .r10 => 10
  | .r11 => 11
  | .r12 => 12
  | .r13 => 13
  | .r14 => 14
  | .mbr => 15

/-- R88. The numbering is the spec's decision D1 (log entry 10). -/
def AluMode.ofBits (v : BitVec 2) : AluMode :=
  match v.toNat with
  | 0 => .noOp
  | 1 => .add
  | 2 => .bitAnd
  | _ => .bitNot

/-- R88. -/
def AluMode.toBits : AluMode → BitVec 2
  | .noOp => 0
  | .add => 1
  | .bitAnd => 2
  | .bitNot => 3

/-- R89. Value 3 is the spare slot, kept apart here so that the word can be rebuilt (R85). -/
def ShMode.ofBits (v : BitVec 2) : ShMode :=
  match v.toNat with
  | 0 => .noOp
  | 1 => .left
  | 2 => .right
  | _ => .spare

/-- R89. -/
def ShMode.toBits : ShMode → BitVec 2
  | .noOp => 0
  | .left => 1
  | .right => 2
  | .spare => 3

/-- R90. The numbering is the spec's decision D1 (log entry 10). -/
def CondMode.ofBits (v : BitVec 2) : CondMode :=
  match v.toNat with
  | 0 => .noOp
  | 1 => .ifNegative
  | 2 => .ifZero
  | _ => .goTo

/-- R90. -/
def CondMode.toBits : CondMode → BitVec 2
  | .noOp => 0
  | .ifNegative => 1
  | .ifZero => 2
  | .goTo => 3

/-! ## Decoding -/

/-- The thirteen fields of a word, each through the accessor call R84 gives for it. Total (R92). -/
def decodeFields (w : Word32) : Fields :=
  { addr := bitGetMany w 0 8
    a := Reg.ofBits (bitGetMany w 8 12)
    b := Reg.ofBits (bitGetMany w 12 16)
    s := Reg.ofBits (bitGetMany w 16 20)
    ens := bitGet w 20
    ms := bitGet w 21
    rdwr := bitGet w 22
    marld := bitGet w 23
    mbrf := bitGet w 24
    sh := ShMode.ofBits (bitGetMany w 25 27)
    alu := AluMode.ofBits (bitGetMany w 27 29)
    cond := CondMode.ofBits (bitGetMany w 29 31)
    amux := bitGet w 31 }

/-- The row of the ALU group (R88, R101). -/
def Fields.aluRow (f : Fields) : Instr :=
  match f.alu with
  | .noOp => .aluPass f.b
  | .add => .aluAdd f.b
  | .bitAnd => .aluAnd f.b
  | .bitNot => .aluNot f.b

/-- The row of the SH group (R89, R101). -/
def Fields.shRow (f : Fields) : Instr :=
  match f.sh with
  | .noOp => .shNone
  | .left => .shLsh
  | .right => .shRsh
  | .spare => .shSpare3

/-- The row of the COND group (R90, R101). -/
def Fields.condRow (f : Fields) : Instr :=
  match f.cond with
  | .noOp => .condNone f.addr
  | .ifNegative => .condJn f.addr
  | .ifZero => .condJz f.addr
  | .goTo => .condGoto f.addr

/-- The row of the AMUX group (R91, R101). -/
def Fields.amuxRow (f : Fields) : Instr := if f.amux then .amuxMar f.a else .amuxAbus f.a

/-- The row of the MARLD group (R91, R101). -/
def Fields.marldRow (f : Fields) : Instr := if f.marld then .marldOn f.b else .marldOff

/-- The row of the WB group (R91, R101). -/
def Fields.wbRow (f : Fields) : Instr := if f.ens then .wbOn f.s else .wbOff f.s

/-- The row of the MEM group (R91, R101). -/
def Fields.memRow (f : Fields) : Instr :=
  if f.ms then (if f.rdwr then .memRd else .memWr) else .memNone f.rdwr

/-- The row of the MBRF group (R91, R101). -/
def Fields.mbrfRow (f : Fields) : Instr := if f.mbrf then .mbrf1 else .mbrf0

/-- The eight rows of a field tuple, in the order the step applies them (R110; MBRF, which no step reads,
stands first, with decoding). -/
def Fields.rows (f : Fields) : List Instr :=
  [f.mbrfRow, f.amuxRow, f.marldRow, f.aluRow, f.shRow, f.condRow, f.wbRow, f.memRow]

/-- The rows a word selects: HALT alone for the zero word, else one of each other group (R93, R101). -/
def decodeRows (w : Word32) : List Instr :=
  if w = 0 then [.halt] else (decodeFields w).rows

/-- The row of one group that a word's bits match; for the group HALT only the zero word has one. -/
def decodeRow (g : Group) (w : Word32) : Option Instr :=
  match g with
  | .halt => if w = 0 then some .halt else none
  | .alu => some (decodeFields w).aluRow
  | .sh => some (decodeFields w).shRow
  | .cond => some (decodeFields w).condRow
  | .amux => some (decodeFields w).amuxRow
  | .marld => some (decodeFields w).marldRow
  | .wb => some (decodeFields w).wbRow
  | .mem => some (decodeFields w).memRow
  | .mbrf => some (decodeFields w).mbrfRow

/-! ## Encoding -/

/-- The `match` column of the opcode table (R101). -/
def Instr.opMatch : Instr → Word32
  | .halt => 0x00000000
  | .aluPass _ => 0x00000000
  | .aluAdd _ => 0x08000000
  | .aluAnd _ => 0x10000000
  | .aluNot _ => 0x18000000
  | .shNone => 0x00000000
  | .shLsh => 0x02000000
  | .shRsh => 0x04000000
  | .shSpare3 => 0x06000000
  | .condNone _ => 0x00000000
  | .condJn _ => 0x20000000
  | .condJz _ => 0x40000000
  | .condGoto _ => 0x60000000
  | .amuxAbus _ => 0x00000000
  | .amuxMar _ => 0x80000000
  | .marldOff => 0x00000000
  | .marldOn _ => 0x00800000
  | .wbOff _ => 0x00000000
  | .wbOn _ => 0x00100000
  | .memNone _ => 0x00000000
  | .memWr => 0x00200000
  | .memRd => 0x00600000
  | .mbrf0 => 0x00000000
  | .mbrf1 => 0x01000000

/-- The `mask` column of the opcode table (R101). -/
def Instr.opMask : Instr → Word32
  | .halt => 0xFFFFFFFF
  | .aluPass _ => 0x18000000
  | .aluAdd _ => 0x18000000
  | .aluAnd _ => 0x18000000
  | .aluNot _ => 0x18000000
  | .shNone => 0x06000000
  | .shLsh => 0x06000000
  | .shRsh => 0x06000000
  | .shSpare3 => 0x06000000
  | .condNone _ => 0x60000000
  | .condJn _ => 0x60000000
  | .condJz _ => 0x60000000
  | .condGoto _ => 0x60000000
  | .amuxAbus _ => 0x80000000
  | .amuxMar _ => 0x80000000
  | .marldOff => 0x00800000
  | .marldOn _ => 0x00800000
  | .wbOff _ => 0x00100000
  | .wbOn _ => 0x00100000
  | .memNone _ => 0x00200000
  | .memWr => 0x00600000
  | .memRd => 0x00600000
  | .mbrf0 => 0x01000000
  | .mbrf1 => 0x01000000

/-- A word matches a row when `w & mask = match` (R101). -/
def Instr.matchesWord (i : Instr) (w : Word32) : Bool := (w &&& i.opMask) == i.opMatch

/-- The operand bits a row carries, at their places of R84. -/
def Instr.operandBits : Instr → Word32
  | .halt => 0
  | .aluPass b => b.toBits.setWidth 32 <<< 12
  | .aluAdd b => b.toBits.setWidth 32 <<< 12
  | .aluAnd b => b.toBits.setWidth 32 <<< 12
  | .aluNot b => b.toBits.setWidth 32 <<< 12
  | .shNone => 0
  | .shLsh => 0
  | .shRsh => 0
  | .shSpare3 => 0
  | .condNone addr => addr.setWidth 32
  | .condJn addr => addr.setWidth 32
  | .condJz addr => addr.setWidth 32
  | .condGoto addr => addr.setWidth 32
  | .amuxAbus a => a.toBits.setWidth 32 <<< 8
  | .amuxMar a => a.toBits.setWidth 32 <<< 8
  | .marldOff => 0
  | .marldOn b => b.toBits.setWidth 32 <<< 12
  | .wbOff d => d.toBits.setWidth 32 <<< 16
  | .wbOn d => d.toBits.setWidth 32 <<< 16
  | .memNone rdwr => (BitVec.ofBool rdwr).setWidth 32 <<< 22
  | .memWr => 0
  | .memRd => 0
  | .mbrf0 => 0
  | .mbrf1 => 0

/-- The word of one micro-operation, every field it does not carry zero (R84, R99). -/
def encode (i : Instr) : Word32 := i.opMatch ||| i.operandBits

/-- The word that selects all the rows of a list: their bits together (R101). -/
def assemble (rows : List Instr) : Word32 := rows.foldr (fun i w => encode i ||| w) 0

/-- The word of a field tuple, by the formula of R85. -/
def encodeFields (f : Fields) : Word32 :=
  f.addr.setWidth 32
    ||| f.a.toBits.setWidth 32 <<< 8
    ||| f.b.toBits.setWidth 32 <<< 12
    ||| f.s.toBits.setWidth 32 <<< 16
    ||| (BitVec.ofBool f.ens).setWidth 32 <<< 20
    ||| (BitVec.ofBool f.ms).setWidth 32 <<< 21
    ||| (BitVec.ofBool f.rdwr).setWidth 32 <<< 22
    ||| (BitVec.ofBool f.marld).setWidth 32 <<< 23
    ||| (BitVec.ofBool f.mbrf).setWidth 32 <<< 24
    ||| f.sh.toBits.setWidth 32 <<< 25
    ||| f.alu.toBits.setWidth 32 <<< 27
    ||| f.cond.toBits.setWidth 32 <<< 29
    ||| (BitVec.ofBool f.amux).setWidth 32 <<< 31

/-! ## The host's question -/

/-- The one row a word is listed under when a single row must stand for it: HALT for the zero word; else the
first row, in the table's order of groups, whose `match` is not zero; else, when all the opcode bits are zero,
the first row that carries an operand bit of the word. A word selects eight rows (R101); this picks the one that
tells it from the zero word (log entry 18). -/
def leadingRow (w : Word32) : Instr :=
  let f := decodeFields w
  let rows := [f.aluRow, f.shRow, f.condRow, f.amuxRow, f.marldRow, f.wbRow, f.memRow, f.mbrfRow]
  if w = 0 then .halt
  else match rows.find? (fun i => i.opMatch != 0) with
    | some i => i
    | none => (rows.find? (fun i => i.operandBits != 0)).getD f.aluRow

/-- The row the decoder gives for the word whose bits are `w`, numbered as the table numbers them. Every row
has 32 bits, all in the one word of the instruction; a number that does not fit in the bits given is no word. -/
def decodeTableWord (nbits w : Nat) : Option Instr :=
  if nbits ≤ 32 ∧ w < 2 ^ nbits then some (leadingRow (BitVec.ofNat 32 w)) else none

end Sys2Proof
end

