-- ==== Sys2Proof/Config.lean ====
section
/-! DEFINITION. What is fixed for one machine when it is constructed (spec/00_scope.md R5, R6). The spec leaves
no value free, so there is no uninterpreted constant here. -/

namespace Sys2Proof

/-- Whether the register write-back is gated on ENS (R6, decision D2). -/
inductive WbPolicy where
  | gated
  | unconditional
deriving DecidableEq, Repr

/-- The open parameters of R6: the program store and the write-back policy. Plain data, held by the state
and changed by no step (R33; log entry 1). `PROG_LEN` is the length of `prog`. -/
structure Config where
  prog : List Word32
  wbPolicy : WbPolicy
deriving DecidableEq, Repr

/-- The largest program a machine can be constructed from, in words (R5). -/
def programCapacity : Nat := 256

/-- The number of data memory cells (R5). -/
def memoryCells : Nat := 65536

/-- The configuration of `State.reset`: the default policy of R6, and no program, since R6 gives none and a
program is supplied from outside (log entries 1 and 2). -/
def Config.default : Config := { prog := [], wbPolicy := .gated }

end Sys2Proof
end

