-- ==== Sys2Proof/Machine/State.lean ====
section
/-! DEFINITION. The whole state of one micro16 CPU as plain data, its reset value, and the named ways a step can
stop (spec/10_state.md R20 to R33, R40; spec/60_exceptions.md R181). -/

namespace Sys2Proof.Machine

/-- The thirteen writable slots of the register file (R21). Slots 0, 1 and 2 are constants and hold no
storage: they are read through `State.reg`. -/
structure Registers where
  mar : Word16
  r4 : Word16
  r5 : Word16
  r6 : Word16
  r7 : Word16
  r8 : Word16
  r9 : Word16
  r10 : Word16
  r11 : Word16
  r12 : Word16
  r13 : Word16
  r14 : Word16
  mbr : Word16
deriving DecidableEq, Repr

/-- The fatal causes of R181, by their canonical names, with the information the spec passes along. -/
inductive Cause where
  | constructionError
  | readOnlyRegisterWrite (index : Reg)
  | invalidRegisterIndex (index : Nat)
deriving DecidableEq, Repr

/-- `status` of R32. -/
inductive Status where
  | running
  | aborted (cause : Cause)
deriving DecidableEq, Repr

/-- The data memory's cells as (address, value) pairs. In canonical form the addresses rise strictly and no
listed value is the zero that an unlisted cell reads as (R54). A cell is one 16-bit value and is never split
into bytes (R52, decision D10; log entry 3). -/
abbrev Memory := List (Nat × Word16)

/-- The values that live inside one step of R110: the operand-A index `ai` (step 4), the ALU result `r`
(step 7) and the shifted value `s` (step 9). The MODEL's own field, idle between steps (log entry 17). -/
structure Datapath where
  operandA : Reg
  result : Word16
  shifted : Word16
deriving DecidableEq, Repr

/-- No step in progress. -/
def Datapath.idle : Datapath := { operandA := .zero, result := 0, shifted := 0 }

/-- The state of R20, with the machine's configuration (R33) and the values inside a step. -/
structure State where
  regs : Registers
  pc : Word8
  negative : Bool
  zero : Bool
  mem : Memory
  armed : Bool
  status : Status
  cfg : Config
  datapath : Datapath
deriving DecidableEq, Repr

/-- The fatal errors of R181. A model treats each as a fault (R180, decision D8). All are safe: the spec says
the machine stops there. -/
inductive Fault where
  /-- `ReadOnlyRegisterWrite`: raised by step 5 of a word with ENS = 1 and S < 3 (R160), by step 11 of a word with
  ENS = 0 and S < 3 under the policy `unconditional` (R163), and by the register file's `set` on index 0 to 2
  (R23). `left` is the machine as the raising line leaves it, aborted (R185). Safe. -/
  | readOnlyRegisterWrite (index : Reg) (left : State)
  /-- `InvalidRegisterIndex`: raised by the register file's own `get` and `set` for an index of 16 or more
  (R22, R23, R184); no step raises it. Safe. -/
  | invalidRegisterIndex (index : Nat)
  /-- `ConstructionError`: raised by `construct` for a program of more than 256 words; no machine exists
  afterwards (R183). No step raises it. Safe. -/
  | constructionError
deriving DecidableEq, Repr

/-- The calls that have no step behind them. -/
inductive Refusal where
  /-- An instruction without a meaning. No arm of `exec` answers it: every row has its meaning. -/
  | notModelled (mnemonic : String)
  /-- A step called with `pc >= PROG_LEN`: there is no word to fetch and no step exists (R214, decision D7).
  The run has ended by `done`, successfully. Safe. -/
  | programDone
  /-- A step called on an aborted machine: no step exists (R32, R121, decision D8). Safe. -/
  | machineAborted (cause : Cause)
deriving DecidableEq, Repr

/-- Every writable register at zero (R40, decision D4; log entry 7). -/
def Registers.reset : Registers :=
  { mar := 0, r4 := 0, r5 := 0, r6 := 0, r7 := 0, r8 := 0, r9 := 0, r10 := 0, r11 := 0, r12 := 0,
    r13 := 0, r14 := 0, mbr := 0 }

/-- The state after construction, R40, of a machine to which no program has been supplied yet. -/
def State.reset : State :=
  { regs := Registers.reset, pc := 0, negative := false, zero := false, mem := [], armed := false,
    status := .running, cfg := Config.default, datapath := Datapath.idle }

end Sys2Proof.Machine
end

