-- ==== Sys2Proof/Machine/Ops.lean ====
section
/-! DEFINITION. The named operations over registers, memory, the memory unit and the step's ends that every
meaning is written over (spec/10_state.md, spec/20_memory.md, spec/60_exceptions.md). -/

namespace Sys2Proof.Machine

/-- What a step or a micro-operation answers. -/
abbrev Result := Host.Outcome State Fault Refusal

/-- The next line of the step, unless an earlier one raised (R110: "a `raise` ends the step at once"). -/
def andThen (o : Result) (k : State → Result) : Result :=
  match o with
  | .next s => k s
  | .fault f => .fault f
  | .refused r => .refused r

/-! ## The register file -/

/-- Indices 0 to 2 are constants: no write to them is possible (R21). -/
def readOnly : Reg → Bool
  | .zero => true
  | .one => true
  | .mone => true
  | .mar => false
  | .r4 => false
  | .r5 => false
  | .r6 => false
  | .r7 => false
  | .r8 => false
  | .r9 => false
  | .r10 => false
  | .r11 => false
  | .r12 => false
  | .r13 => false
  | .r14 => false
  | .mbr => false

/-- Register read `x[i]` (R22): the constants always read their fixed values. -/
def State.reg (s : State) : Reg → Word16
  | .zero => 0x0000
  | .one => 0x0001
  | .mone => 0xFFFF
  | .mar => s.regs.mar
  | .r4 => s.regs.r4
  | .r5 => s.regs.r5
  | .r6 => s.regs.r6
  | .r7 => s.regs.r7
  | .r8 => s.regs.r8
  | .r9 => s.regs.r9
  | .r10 => s.regs.r10
  | .r11 => s.regs.r11
  | .r12 => s.regs.r12
  | .r13 => s.regs.r13
  | .r14 => s.regs.r14
  | .mbr => s.regs.mbr

/-- The register file with one slot replaced; a constant slot holds nothing to replace. -/
def Registers.put (x : Registers) (v : Word16) : Reg → Registers
  | .zero => x
  | .one => x
  | .mone => x
  | .mar => { x with mar := v }
  | .r4 => { x with r4 := v }
  | .r5 => { x with r5 := v }
  | .r6 => { x with r6 := v }
  | .r7 => { x with r7 := v }
  | .r8 => { x with r8 := v }
  | .r9 => { x with r9 := v }
  | .r10 => { x with r10 := v }
  | .r11 => { x with r11 := v }
  | .r12 => { x with r12 := v }
  | .r13 => { x with r13 := v }
  | .r14 => { x with r14 := v }
  | .mbr => { x with mbr := v }

/-- The state with slot `r` holding `v`; `writeReg` is the checked write. -/
def State.setReg (s : State) (r : Reg) (v : Word16) : State := { s with regs := s.regs.put v r }

/-- What a fatal error does to the machine at the raising line: everything before it has happened, `status`
becomes `Aborted(cause)`, and no step is in progress any more (R185). -/
def State.abort (s : State) (c : Cause) : State :=
  { s with status := .aborted c, datapath := Datapath.idle }

/-- `raise ReadOnlyRegisterWrite(S)` (R181, R182), the one operation behind every fatal error of a step. -/
def raiseReadOnly (r : Reg) (s : State) : Result :=
  .fault (.readOnlyRegisterWrite r (s.abort (.readOnlyRegisterWrite r)))

/-- Register write `x[i] <- v` through the register file's `set` (R23): fatal for indices 0 to 2, by the index
alone, else slot `i` takes `v`. -/
def writeReg (r : Reg) (v : Word16) (s : State) : Result :=
  if readOnly r then raiseReadOnly r s else .next (s.setReg r v)

/-- The slot a number names at the register file's own interface (R21: "any index outside [0,16)" names none). -/
def regOfIndex (i : Nat) : Option Reg :=
  if i < 16 then some (Reg.ofBits (BitVec.ofNat 4 i)) else none

/-- The register file's `get(index)` (R22, R184). -/
def fileGet (i : Nat) (s : State) : Except Fault Word16 :=
  match regOfIndex i with
  | some r => .ok (s.reg r)
  | none => .error (.invalidRegisterIndex i)

/-- The register file's `set(index, value)` (R23, R184). -/
def fileSet (i : Nat) (v : Word16) (s : State) : Result :=
  match regOfIndex i with
  | some r => writeReg r v s
  | none => .fault (.invalidRegisterIndex i)

/-! ## The data memory -/

/-- The canonical form: addresses of real cells, strictly rising, and no entry that reads as an unlisted one. -/
abbrev Memory.wf (m : Memory) : Prop :=
  m.Pairwise (fun p q => p.1 < q.1) ∧ ∀ p ∈ m, p.1 < memoryCells ∧ p.2 ≠ 0

/-- The content of cell `a`; a cell that is not listed reads 0x0000 (R54). -/
def Memory.cell : Memory → Nat → Word16
  | [], _ => 0
  | p :: rest, a => if p.1 = a then p.2 else Memory.cell rest a

/-- The memory without an entry for cell `a`. -/
def Memory.erase (m : Memory) (a : Nat) : Memory := m.filter (fun p => p.1 != a)

/-- An entry put before the first one with a higher address. -/
def Memory.insert (a : Nat) (v : Word16) : Memory → Memory
  | [] => [(a, v)]
  | p :: rest => if a < p.1 then (a, v) :: p :: rest else p :: Memory.insert a v rest

/-- The memory with cell `a` holding `v`, in canonical form: a zero is not listed. -/
def Memory.put (m : Memory) (a : Nat) (v : Word16) : Memory :=
  if v = 0 then Memory.erase m a else Memory.insert a v (Memory.erase m a)

/-- `MemRead(addr, 16)`, the raw read (R54). -/
def memRead (addr : Word16) (s : State) : Word16 := Memory.cell s.mem addr.toNat

/-- `MemWrite(addr, 16, v)`, the raw write (R54). -/
def memWrite (addr v : Word16) (s : State) : State := { s with mem := Memory.put s.mem addr.toNat v }

/-! ## The memory unit -/

/-- `MU.read(addr)`, one invocation (R56): the value, if this is phase 2, and the state after it. -/
def muRead (addr : Word16) (s : State) : Option Word16 × State :=
  if s.armed then (some (memRead addr s), { s with armed := false }) else (none, { s with armed := true })

/-- `MU.write(addr, value)`, one invocation (R57): whether it was committed, and the state after it. -/
def muWrite (addr v : Word16) (s : State) : Bool × State :=
  if s.armed then (true, { memWrite addr v s with armed := false }) else (false, { s with armed := true })

/-! ## The program counter and the ends of a step -/

/-- `pc <- t`. -/
def State.setPc (s : State) (t : Word8) : State := { s with pc := t }

/-- `done` (R37). -/
def State.done (s : State) : Bool := decide (s.cfg.prog.length ≤ s.pc.toNat)

/-- The word at the program counter (R68); none when the machine is `done`. -/
def State.fetch (s : State) : Option Word32 := s.cfg.prog[s.pc.toNat]?

/-- Step 1, the flag reset (R111). Nothing an earlier step left in the datapath survives it. -/
def State.beginStep (s : State) : State :=
  { s with negative := false, zero := false, datapath := Datapath.idle }

/-- Step 13: `pc <- (pc + 1) mod 256` (R119), the end of every step that neither halts nor aborts. -/
def State.endStep (s : State) : State := { s with pc := s.pc + 1, datapath := Datapath.idle }

/-! ## Construction -/

/-- `new(program)` (R34, R183, R210): the reset state of R40 with the program and policy given, or the fatal
`ConstructionError`. -/
def construct (prog : List Word32) (policy : WbPolicy) : Result :=
  if programCapacity < prog.length then .fault .constructionError
  else .next { State.reset with cfg := { prog := prog, wbPolicy := policy } }

/-- The program with word `w` at index `i`, zero words (HALT) filling any gap before it. -/
def placeWord (prog : List Word32) (i : Nat) (w : Word32) : List Word32 :=
  (prog ++ List.replicate (i + 1 - prog.length) 0).set i w

/-- The machine with word `w` where the next step fetches, and running. It stands for the supply of a program
from outside (log entry 1); no step does this. -/
def supplyWord (w : Word32) (s : State) : State :=
  { s with status := .running, cfg := { s.cfg with prog := placeWord s.cfg.prog s.pc.toNat w } }

end Sys2Proof.Machine
end

