-- ==== Sys2Proof/Machine/Flags.lean ====
section
/-! DEFINITION. The flag computation of step 8 (spec/40_step_sequence.md R117). -/

namespace Sys2Proof.Machine

/-- `N <- r[15]`: the sign of the ALU result in two's complement (R8, R117). -/
def negativeOf (r : Word16) : Bool := r.getLsbD 15

/-- `Z <- (r = 0x0000)` (R117). -/
def zeroOf (r : Word16) : Bool := r == 0

/-- Step 8: both flags, from the ALU result and not from the shifted value (R117). -/
def setFlags (r : Word16) (s : State) : State := { s with negative := negativeOf r, zero := zeroOf r }

end Sys2Proof.Machine
end

