-- ==== Sys2Proof/Machine/Operands.lean ====
section
/-! DEFINITION. The operand forms: the operand-A multiplexer, the two operands of the ALU, and the address and
datum of the memory stage (spec/30_encoding.md R87; spec/40_step_sequence.md R114, R116; spec/45_memory_ops.md
R170). -/

namespace Sys2Proof.Machine

/-- Step 4: `ai <- r` (R114). -/
def selectA (r : Reg) (s : State) : State := { s with datapath := { s.datapath with operandA := r } }

/-- Operand `a = x[ai]`, read at step 7, after any MAR load of the same word (R116). -/
def operandA (s : State) : Word16 := s.reg s.datapath.operandA

/-- Operand `b = x[B]`, read at step 7 (R116). -/
def operandB (b : Reg) (s : State) : Word16 := s.reg b

/-- The address of a memory transfer: MAR at step 12 (R51, R170). -/
def memAddress (s : State) : Word16 := s.reg .mar

/-- The datum of a memory write: MBR at step 12 (R170). -/
def memDatum (s : State) : Word16 := s.reg .mbr

end Sys2Proof.Machine
end

