-- ==== Sys2Proof/Machine/Alu.lean ====
section
/-! DEFINITION. The ALU rows: steps 7 and 8 of the step (spec/41_alu.md). -/

namespace Sys2Proof.Machine

/-- What every ALU row does with its result: `r` goes to the datapath and to the flags (R117, R130). -/
def aluFinish (r : Word16) (s : State) : State :=
  setFlags r { s with datapath := { s.datapath with result := r } }

/-- ALU.PASS, R131: `r <- a`; `b` is read and not used. -/
def execAluPass (_b : Reg) (s : State) : Result := .next (aluFinish (operandA s) s)

/-- ALU.ADD, R132: `r <- a +16 b`. -/
def execAluAdd (b : Reg) (s : State) : Result := .next (aluFinish (operandA s + operandB b s) s)

/-- ALU.AND, R133: `r <- a & b`. -/
def execAluAnd (b : Reg) (s : State) : Result := .next (aluFinish (operandA s &&& operandB b s) s)

/-- ALU.NOT, R134: `r <- ~a`; `b` is read and not used. -/
def execAluNot (_b : Reg) (s : State) : Result := .next (aluFinish (~~~(operandA s)) s)

end Sys2Proof.Machine
end

