-- ==== Sys2Proof/Machine/Condition.lean ====
section
/-! DEFINITION. The condition/branch rows: step 10 of the step (spec/43_branch.md). The flags they read are those
step 8 of the same word has set; step 13 increments `pc` afterwards. -/

namespace Sys2Proof.Machine

/-- COND.NONE, R151. -/
def execCondNone (_addr : Word8) (s : State) : Result := .next s

/-- COND.JN, R152. -/
def execCondJn (addr : Word8) (s : State) : Result := .next (if s.negative then s.setPc addr else s)

/-- COND.JZ, R153. -/
def execCondJz (addr : Word8) (s : State) : Result := .next (if s.zero then s.setPc addr else s)

/-- COND.GOTO, R154. -/
def execCondGoto (addr : Word8) (s : State) : Result := .next (s.setPc addr)

end Sys2Proof.Machine
end

