-- ==== Sys2Proof/Machine/Halt.lean ====
section
/-! DEFINITION. The halt sentinel (spec/40_step_sequence.md R112). -/

namespace Sys2Proof.Machine

/-- HALT, R112: the flag reset of step 1 and nothing else; `pc` is not advanced (decision D3; log entry 11). -/
def execHalt (s : State) : Result := .next s.beginStep

end Sys2Proof.Machine
end

