-- ==== Sys2Proof/Machine/MemStage.lean ====
section
/-! DEFINITION. The memory-stage rows: step 12 of the step (spec/45_memory_ops.md). -/

namespace Sys2Proof.Machine

/-- MEM.NONE, R170: the memory unit is not invoked; `RDWR` is ignored. -/
def execMemNone (_rdwr : Bool) (s : State) : Result := .next s

/-- MEM.RD, R171: one `MU.read(x[3])`; a completed one stores its value into MBR. -/
def execMemRd (s : State) : Result :=
  match muRead (memAddress s) s with
  | (some v, t) => writeReg .mbr v t
  | (none, t) => .next t

/-- MEM.WR, R172: one `MU.write(x[3], x[15])`; its result is ignored. -/
def execMemWr (s : State) : Result := .next (muWrite (memAddress s) (memDatum s) s).2

end Sys2Proof.Machine
end

