-- ==== Sys2Proof/Machine/Select.lean ====
section
/-! DEFINITION. The AMUX rows (step 4), the MARLD rows (step 6) and the reserved MBRF rows
(spec/40_step_sequence.md R114, R115; spec/30_encoding.md R94). -/

namespace Sys2Proof.Machine

/-- AMUX.ABUS, R114: `ai <- A`. -/
def execAmuxAbus (a : Reg) (s : State) : Result := .next (selectA a s)

/-- AMUX.MAR, R114: `ai <- 3`; the `A` field is ignored. -/
def execAmuxMar (_a : Reg) (s : State) : Result := .next (selectA .mar s)

/-- MARLD.OFF, R115. -/
def execMarldOff (s : State) : Result := .next s

/-- MARLD.ON, R115: `x[3] <- x[B]`, a second write port that ENS does not gate. -/
def execMarldOn (b : Reg) (s : State) : Result := writeReg .mar (s.reg b) s

/-- MBRF.0, R94: decoded, not consumed. -/
def execMbrf0 (s : State) : Result := .next s

/-- MBRF.1, R94: decoded, not consumed. -/
def execMbrf1 (s : State) : Result := .next s

end Sys2Proof.Machine
end

