-- ==== Sys2Proof/Machine/Shifter.lean ====
section
/-! DEFINITION. The shifter rows: step 9 of the step (spec/42_shifter.md). -/

namespace Sys2Proof.Machine

/-- Step 9: `s <- v`, to the datapath only (R140). -/
def setShifted (v : Word16) (s : State) : State := { s with datapath := { s.datapath with shifted := v } }

/-- SH.NONE, R141. -/
def execShNone (s : State) : Result := .next (setShifted s.datapath.result s)

/-- SH.LSH, R142: one place left, zero fill. -/
def execShLsh (s : State) : Result := .next (setShifted (s.datapath.result <<< 1) s)

/-- SH.RSH, R143: one place right, sign fill. -/
def execShRsh (s : State) : Result := .next (setShifted (s.datapath.result.sshiftRight 1) s)

/-- SH.SPARE3, R144: as SH.NONE. -/
def execShSpare3 (s : State) : Result := .next (setShifted s.datapath.result s)

end Sys2Proof.Machine
end

