-- ==== Sys2Proof/Machine/WriteBack.lean ====
section
/-! DEFINITION. The read-only check (step 5) and the write-back rows (step 11) (spec/44_writeback.md). -/

namespace Sys2Proof.Machine

/-- Step 5, R160: `if ENS = 1 and S < 3: raise ReadOnlyRegisterWrite(S)`, under both policies. -/
def readOnlyCheck (ens : Bool) (d : Reg) (s : State) : Result :=
  if ens && readOnly d then raiseReadOnly d s else .next s

/-- Step 11: `x[S] <- s`, through the register file's `set` (R161, R163). -/
def writeBack (d : Reg) (s : State) : Result := writeReg d s.datapath.shifted s

/-- WB.ON, R161. Inside a step a read-only `d` never gets here: step 5 has raised (log entry 24). -/
def execWbOn (d : Reg) (s : State) : Result := writeBack d s

/-- WB.OFF: nothing under `gated` (R162); under `unconditional` the same write as WB.ON, fatal for a read-only
`d` here, at step 11 (R163). -/
def execWbOff (d : Reg) (s : State) : Result :=
  match s.cfg.wbPolicy with
  | .gated => .next s
  | .unconditional => writeBack d s

end Sys2Proof.Machine
end

