-- ==== Sys2Proof/Machine/Dispatch.lean ====
section
/-! DEFINITION. One arm per row of the opcode table. -/

namespace Sys2Proof.Machine
open Sys2Proof

def exec (i : Instr) (s : State) : Host.Outcome State Fault Refusal :=
  match i with
  | .halt => Sys2Proof.Machine.execHalt s
  | .aluPass b => Sys2Proof.Machine.execAluPass b s
  | .aluAdd b => Sys2Proof.Machine.execAluAdd b s
  | .aluAnd b => Sys2Proof.Machine.execAluAnd b s
  | .aluNot b => Sys2Proof.Machine.execAluNot b s
  | .shNone => Sys2Proof.Machine.execShNone s
  | .shLsh => Sys2Proof.Machine.execShLsh s
  | .shRsh => Sys2Proof.Machine.execShRsh s
  | .shSpare3 => Sys2Proof.Machine.execShSpare3 s
  | .condNone addr => Sys2Proof.Machine.execCondNone addr s
  | .condJn addr => Sys2Proof.Machine.execCondJn addr s
  | .condJz addr => Sys2Proof.Machine.execCondJz addr s
  | .condGoto addr => Sys2Proof.Machine.execCondGoto addr s
  | .amuxAbus a => Sys2Proof.Machine.execAmuxAbus a s
  | .amuxMar a => Sys2Proof.Machine.execAmuxMar a s
  | .marldOff => Sys2Proof.Machine.execMarldOff s
  | .marldOn b => Sys2Proof.Machine.execMarldOn b s
  | .wbOff d => Sys2Proof.Machine.execWbOff d s
  | .wbOn d => Sys2Proof.Machine.execWbOn d s
  | .memNone rdwr => Sys2Proof.Machine.execMemNone rdwr s
  | .memWr => Sys2Proof.Machine.execMemWr s
  | .memRd => Sys2Proof.Machine.execMemRd s
  | .mbrf0 => Sys2Proof.Machine.execMbrf0 s
  | .mbrf1 => Sys2Proof.Machine.execMbrf1 s

end Sys2Proof.Machine
end

