-- ==== Sys2Proof/Machine/Controller.lean ====
section
/-! DEFINITION. The controller's step: the thirteen numbered lines of spec/40_step_sequence.md R110, as the rows of
one word applied in their order. -/

namespace Sys2Proof.Machine

/-- Steps 3 to 13 of R110 on a nonzero word, after the flag reset: each row of the word once, the read-only
check of step 5 in its place, and the increment of step 13 at the end. -/
def executeFields (f : Fields) (s : State) : Result :=
  andThen (exec f.mbrfRow s) fun s =>
  andThen (exec f.amuxRow s) fun s =>
  andThen (readOnlyCheck f.ens f.s s) fun s =>
  andThen (exec f.marldRow s) fun s =>
  andThen (exec f.aluRow s) fun s =>
  andThen (exec f.shRow s) fun s =>
  andThen (exec f.condRow s) fun s =>
  andThen (exec f.wbRow s) fun s =>
  andThen (exec f.memRow s) fun s =>
  .next s.endStep

/-- Steps 2 to 13 of R110 on the fetched word: the zero word halts before anything is decoded (R93, R112). -/
def executeWord (w : Word32) (s : State) : Result :=
  if w = 0 then exec .halt s else executeFields (decodeFields w) s

/-- One invocation of `step` (R110). An aborted machine has no step (R32, R121), nor has one whose program
counter has reached the program's length (R214). -/
def controllerStep (s : State) : Result :=
  match s.status with
  | .aborted c => .refused (.machineAborted c)
  | .running =>
    match s.fetch with
    | none => .refused .programDone
    | some w => executeWord w s.beginStep

end Sys2Proof.Machine
end

