-- ==== Sys2Proof/Machine/Step.lean ====
section
/-! DEFINITION. The step function, and the placing of a word where it fetches. -/

namespace Sys2Proof.Machine

/-- One clock step (R35, R110). -/
def step (s : State) : Host.Outcome State Fault Refusal := Sys2Proof.Machine.controllerStep s

/-- `s` with the instruction word `w` where the next step fetches, and running, so that the very next step runs
it: what the supply of a program from outside amounts to (log entry 1). Every instruction is one 32-bit word
(R83), so the bits above `nbits` are bits of that word, and they are zero. -/
def State.withFetchWord (s : State) (nbits w : Nat) : State :=
  supplyWord (BitVec.ofNat 32 (w % 2 ^ nbits)) s

end Sys2Proof.Machine
end

