-- ==== Sys2Proof/Safety.lean ====
section
/-! DEFINITION. The terms claims are made in: the spec's own step written out in one piece, what one word does to
a state, when a word is fatal, when a run has ended, and the invariant of every step. Nothing here is used by
the machine. -/

namespace Sys2Proof.Machine

/-! ## The units, in the arithmetic of the spec (R8, R9) -/

/-- `ALUop(mode, a, b)` on unsigned readings (R131 to R134). -/
def aluOp (mode : AluMode) (a b : Word16) : Word16 :=
  match mode with
  | .noOp => a
  | .add => BitVec.ofNat 16 ((a.toNat + b.toNat) % 65536)
  | .bitAnd => a &&& b
  | .bitNot => a ^^^ 0xFFFF

/-- `SHop(mode, x)`: doubling modulo 65536, and halving toward minus infinity (R141 to R144). -/
def shOp (mode : ShMode) (x : Word16) : Word16 :=
  match mode with
  | .noOp => x
  | .left => BitVec.ofNat 16 (2 * x.toNat % 65536)
  | .right => BitVec.ofInt 16 (x.toInt / 2)
  | .spare => x

/-- `taken(COND, N, Z)` (R151 to R154). -/
def taken (mode : CondMode) (n z : Bool) : Bool :=
  match mode with
  | .noOp => false
  | .ifNegative => n
  | .ifZero => z
  | .goTo => true

/-! ## The step of R110, in one piece -/

/-- Lines 11 to 13 of R110, on the state the lines before them have made. -/
def r110Tail (f : Fields) (shifted : Word16) (s : State) : Result :=
  let writes := f.ens || s.cfg.wbPolicy == .unconditional
  if writes && readOnly f.s then raiseReadOnly f.s s
  else
    let s := if writes then s.setReg f.s shifted else s
    let s :=
      if f.ms then
        if f.rdwr then
          match muRead (s.reg .mar) s with
          | (some v, s) => s.setReg .mbr v
          | (none, s) => s
        else (muWrite (s.reg .mar) (s.reg .mbr) s).2
      else s
    .next { s with pc := BitVec.ofNat 8 ((s.pc.toNat + 1) % 256) }

/-- `step()` as R110 writes it, line by line, with R121 and R214 for the machines that have no step. -/
def r110Step (s : State) : Result :=
  match s.status with
  | .aborted c => .refused (.machineAborted c)
  | .running =>
    match s.cfg.prog[s.pc.toNat]? with
    | none => .refused .programDone
    | some w =>
      let s := { s with negative := false, zero := false, datapath := Datapath.idle }
      if w = 0x00000000 then .next s
      else
        let f := decodeFields w
        let ai := if f.amux then Reg.mar else f.a
        if f.ens && readOnly f.s then raiseReadOnly f.s s
        else
          let s := if f.marld then s.setReg .mar (s.reg f.b) else s
          let r := aluOp f.alu (s.reg ai) (s.reg f.b)
          let s := { s with negative := decide (r.toInt < 0), zero := decide (r.toNat = 0) }
          let shifted := shOp f.sh r
          let s := if taken f.cond s.negative s.zero then { s with pc := f.addr } else s
          r110Tail f shifted s

/-! ## What one word does, as functions of the state the step starts from (R120) -/

/-- The machine is running and the step it takes next fetches `w`, which is not the halt sentinel. -/
def Executes (s : State) (w : Word32) : Prop := s.status = .running ∧ s.fetch = some w ∧ w ≠ 0

/-- Register `r` after the MAR load of step 6 (R115). -/
def regAfterLoad (f : Fields) (s : State) (r : Reg) : Word16 :=
  if f.marld && r == .mar then s.reg f.b else s.reg r

/-- The ALU result of the word (R116). -/
def wordResult (f : Fields) (s : State) : Word16 :=
  aluOp f.alu (regAfterLoad f s (if f.amux then .mar else f.a)) (regAfterLoad f s f.b)

/-- The shifted value of the word (R140). -/
def wordShifted (f : Fields) (s : State) : Word16 := shOp f.sh (wordResult f s)

/-- Whether the word's branch is taken (R150, with the signed reading of R28). -/
def branches (f : Fields) (s : State) : Bool :=
  taken f.cond (decide ((wordResult f s).toInt < 0)) (decide ((wordResult f s).toNat = 0))

/-- Whether step 11 writes a register (R161 to R163). -/
def writesBack (f : Fields) (s : State) : Bool := f.ens || s.cfg.wbPolicy == .unconditional

/-- Register `r` after the write-back of step 11, when it does not abort. -/
def regAfterWriteBack (f : Fields) (s : State) (r : Reg) : Word16 :=
  if writesBack f s && r == f.s then wordShifted f s else regAfterLoad f s r

/-- The address of the word's transfer: MAR at step 12 (R170). -/
def transferAddress (f : Fields) (s : State) : Nat := (regAfterWriteBack f s .mar).toNat

/-- The word makes the second invocation of a read (R171). -/
def completesRead (f : Fields) (s : State) : Bool := f.ms && f.rdwr && s.armed

/-- The word makes the second invocation of a write (R172). -/
def completesWrite (f : Fields) (s : State) : Bool := f.ms && !f.rdwr && s.armed

/-- Register `r` at the end of the step. -/
def finalReg (f : Fields) (s : State) (r : Reg) : Word16 :=
  if completesRead f s && r == .mbr then Memory.cell s.mem (transferAddress f s) else regAfterWriteBack f s r

/-- Cell `a` at the end of the step. -/
def finalCell (f : Fields) (s : State) (a : Nat) : Word16 :=
  if completesWrite f s && a == transferAddress f s then regAfterWriteBack f s .mbr else Memory.cell s.mem a

/-- The program counter at the end of the step (R27, R155). -/
def finalPc (f : Fields) (s : State) : Nat :=
  ((if branches f s then f.addr else s.pc).toNat + 1) % 256

/-! ## Fatal words, ends of a run -/

/-- The words a step aborts on, by their bits alone (R96, with the masks as C11 corrects them). -/
def fatalWord (policy : WbPolicy) (w : Word32) : Bool :=
  w != 0 && (w &&& 0x001E0000 == 0x00100000 || w &&& 0x001F0000 == 0x00120000
    || (policy == .unconditional && decide (w.toNat / 65536 % 16 < 3)))

/-- The halted condition of R215. -/
def State.halted (s : State) : Bool := s.status == .running && s.fetch == some 0

/-- A successful end of a run: `done` or halted, and not aborted (R213, R215, R216). -/
def State.final (s : State) : Bool := s.status == .running && (s.done || s.halted)

/-! ## The invariant, and the count of memory words -/

/-- What every step keeps: the memory in canonical form, a program that fits the store (R5), never both flags
(R117), no step half done (log entry 17), and no abort (R32). -/
def State.Inv (s : State) : Prop :=
  Memory.wf s.mem ∧ s.cfg.prog.length ≤ programCapacity ∧ ¬(s.negative = true ∧ s.zero = true)
    ∧ s.datapath = Datapath.idle ∧ s.status = .running

/-- `n` steps in a row, ending early at the first that answers no next state (R212). -/
def runSteps : Nat → State → Result
  | 0, s => .next s
  | n + 1, s => andThen (step s) (runSteps n)

/-- The step that starts at `s` invokes the memory unit, if it gets to step 12: it fetches a word with MS = 1. -/
def invokesMemory (s : State) : Bool :=
  match s.fetch with
  | some w => bitGet w 21
  | none => false

/-- How many of the next `n` steps from `s` invoke the memory unit. -/
def memoryWords : Nat → State → Nat
  | 0, _ => 0
  | n + 1, s =>
    (if invokesMemory s then 1 else 0)
      + (match step s with
        | .next t => memoryWords n t
        | .fault _ => 0
        | .refused _ => 0)

end Sys2Proof.Machine
end

