-- ==== Sys2Proof/Certificates/Slice0/Obligations.lean ====
section
/-! DEFINITION. The statements about the micro16 model. Each docstring names the rule of spec/ it formalises, and the
log entry where it rests on a decision. `f` is everywhere the field tuple of the word in question. -/

open Sys2Proof Sys2Proof.Machine

/-! ## Encoding -/

/-- R85: decoding loses nothing, and the formula of R85 rebuilds the word; and since the fields cover each bit
once, every field tuple is what its word decodes to. -/
def Obligations.EncodingRebuildsEveryWord : Prop :=
  (∀ w : Word32, encodeFields (decodeFields w) = w) ∧ ∀ f : Fields, decodeFields (encodeFields f) = f

/-- Decode and encode agree on micro-operations: every well-formed list of rows, with every operand at every
value, is what the word assembled from it decodes to (R84, R101; the mode numbers are decision D1, log entry 10). -/
def Obligations.AssembledRowsDecodeToThemselves : Prop :=
  ∀ rows : List Instr, rowsWellFormed rows = true → decodeRows (assemble rows) = rows

/-- Every word selects a well-formed list of rows, and its bits are those of its rows together (R92, R101). -/
def Obligations.EveryWordSelectsWellFormedRows : Prop :=
  ∀ w : Word32, rowsWellFormed (decodeRows w) = true ∧ assemble (decodeRows w) = w

/-- A nonzero word matches, by the table's masks, exactly one row of each group but HALT, the one the decoder
gives; the zero word is HALT's alone (R101; mode numbers by D1, log entry 10). -/
def Obligations.DecodedRowsAreTheTablesRows : Prop :=
  (∀ w : Word32, decodeRow .halt w = some .halt ↔ w = 0)
  ∧ ∀ (w : Word32) (g : Group), w ≠ 0 → g ≠ .halt →
      ∃ i : Instr, decodeRow g w = some i ∧ i.group = g ∧ i.matchesWord w = true
        ∧ ∀ j : Instr, j.group = g → j.matchesWord w = true → j.opMatch = i.opMatch ∧ j.opMask = i.opMask

/-- R80 and R81: the BitField accessor, on unsigned numbers. -/
def Obligations.AccessorExtractsTheBitRange : Prop :=
  (∀ (w : Word32) (i : Fin 32), bitGet w i = decide (w.toNat / 2 ^ i.val % 2 = 1))
  ∧ (∀ (w : Word32) (start stop : Nat) (h : start ≤ stop ∧ stop ≤ 31),
      (bitGetMany w start stop h).toNat = w.toNat / 2 ^ start % 2 ^ (stop - start))
  ∧ ∀ (w : Word32) (start : Nat) (h : start ≤ start ∧ start ≤ 31), (bitGetMany w start start h).toNat = 0

/-- Words of the spec's table V2 decode to the fields that table lists, and one to its eight rows (95_test_vectors.md;
mode numbers by D1, log entry 10). -/
def Obligations.SpecWordsDecodeAsListed : Prop :=
  decodeFields 0xDEADBEEF =
    { addr := 239, a := .r14, b := .r11, s := .r13, ens := false, ms := true, rdwr := false, marld := true,
      mbrf := false, sh := .spare, alu := .bitNot, cond := .ifZero, amux := true }
  ∧ decodeFields 0x12345678 =
    { addr := 120, a := .r6, b := .r5, s := .r4, ens := true, ms := true, rdwr := false, marld := false,
      mbrf := false, sh := .left, alu := .bitAnd, cond := .noOp, amux := false }
  ∧ decodeRows 0x0A151100 =
    [.mbrf0, .amuxAbus .one, .marldOff, .aluAdd .one, .shLsh, .condNone 0, .wbOn .r5, .memNone false]
  ∧ decodeRows 0x00000000 = [.halt]

/-! ## Reset and construction -/

/-- The reset state of R40. The values of registers 3 to 15, of the flags and of `armed` are the spec's decisions D4,
D5 and D6 (log entries 7, 8, 9); the empty program and the gated policy are log entries 1 and 2. -/
def Obligations.ResetLeavesTheListedValues : Prop :=
  State.reset.reg .zero = 0x0000 ∧ State.reset.reg .one = 0x0001 ∧ State.reset.reg .mone = 0xFFFF
  ∧ (∀ r, readOnly r = false → State.reset.reg r = 0x0000)
  ∧ State.reset.pc = 0 ∧ State.reset.negative = false ∧ State.reset.zero = false
  ∧ (∀ a, Memory.cell State.reset.mem a = 0x0000)
  ∧ State.reset.armed = false ∧ State.reset.status = .running
  ∧ State.reset.cfg.prog = [] ∧ State.reset.cfg.wbPolicy = .gated

/-- Construction (R34, R183, R210): more than 256 words give no machine; any other program gives the reset state
with that program, `done` at once exactly when the program is empty; with 256 words no machine is ever done (R37). -/
def Obligations.ConstructionTakesUpTo256Words : Prop :=
  ∀ (prog : List Word32) (policy : WbPolicy),
    (256 < prog.length → construct prog policy = .fault .constructionError)
    ∧ (prog.length ≤ 256 →
        ∃ t, construct prog policy = .next t ∧ t.cfg.prog = prog ∧ t.cfg.wbPolicy = policy
          ∧ (∀ r, t.reg r = State.reset.reg r) ∧ t.pc = 0 ∧ t.negative = false ∧ t.zero = false
          ∧ (∀ a, Memory.cell t.mem a = 0x0000) ∧ t.armed = false ∧ t.status = .running ∧ t.Inv
          ∧ (t.done = true ↔ prog = []))
    ∧ ∀ s : State, s.cfg.prog = prog → prog.length = 256 → s.done = false

/-! ## The register file at its own interface -/

/-- 10_state.md section 2 (R22): reading any of the sixteen indices gives the slot's value, the constants always
theirs, and an index of 16 or more is `InvalidRegisterIndex`. That no step produces such an index (the last clause)
is what R22 marks as derived, from R84 and R110; that the error is represented at all is decision D18 (log entry 16). -/
def Obligations.RegisterReadAtTheInterface : Prop :=
  ∀ s : State,
    (∀ r : Reg, fileGet r.toBits.toNat s = .ok (s.reg r))
    ∧ (∀ i, i < 16 → ∃ v, fileGet i s = .ok v)
    ∧ fileGet 0 s = .ok 0x0000 ∧ fileGet 1 s = .ok 0x0001 ∧ fileGet 2 s = .ok 0xFFFF
    ∧ (∀ i, 16 ≤ i → fileGet i s = .error (.invalidRegisterIndex i))
    ∧ ∀ i, step s ≠ .fault (.invalidRegisterIndex i)

/-- R23: `set` on 3 to 15 changes that slot and no other (and nothing beside the register file); on 0 to 2 it is
fatal whatever the value and leaves the register file as it was; on 16 or more it is `InvalidRegisterIndex`. -/
def Obligations.RegisterWriteAtTheInterface : Prop :=
  ∀ (s : State) (v : Word16) (i : Nat),
    (3 ≤ i → i < 16 →
      ∃ t, fileSet i v s = .next t ∧ fileGet i t = .ok v ∧ (∀ j, j ≠ i → fileGet j t = fileGet j s)
        ∧ t = { s with regs := t.regs })
    ∧ (i < 3 →
      ∃ r left, fileSet i v s = .fault (.readOnlyRegisterWrite r left) ∧ r.toBits.toNat = i ∧ left.regs = s.regs)
    ∧ (16 ≤ i → fileSet i v s = .fault (.invalidRegisterIndex i))

/-! ## Memory and the memory unit -/

/-- R54: a write replaces the cell it names and no other, a read gives the cell, before any write every cell
reads 0x0000, and nothing but a completed write of the memory unit changes the array. -/
def Obligations.RawWriteReplacesOneCell : Prop :=
  (∀ (s : State) (a b v : Word16),
    memRead a (memWrite a v s) = v ∧ (b ≠ a → memRead b (memWrite a v s) = memRead b s))
  ∧ (∀ a : Word16, memRead a State.reset = 0x0000)
  ∧ ∀ (s t : State) (w : Word32), s.status = .running → s.fetch = some w → step s = .next t →
      w = 0 ∨ completesWrite (decodeFields w) s = false → t.mem = s.mem

/-- Equal memories are equal data: two canonical memories that read alike at every address are the same list (the
model's form of the cell array, log entry 3). -/
def Obligations.CanonicalMemoryIsDeterminedByItsCells : Prop :=
  ∀ m n : Memory, Memory.wf m → Memory.wf n → (∀ a, Memory.cell m a = Memory.cell n a) → m = n

/-- R56: one `MU.read`, in its two phases. -/
def Obligations.MemoryUnitReadInTwoPhases : Prop :=
  ∀ (a : Word16) (s : State),
    (s.armed = false → muRead a s = (none, { s with armed := true }))
    ∧ (s.armed = true → muRead a s = (some (Memory.cell s.mem a.toNat), { s with armed := false }))

/-- R57: one `MU.write`, in its two phases. -/
def Obligations.MemoryUnitWriteInTwoPhases : Prop :=
  ∀ (a v : Word16) (s : State),
    (s.armed = false → muWrite a v s = (false, { s with armed := true }))
    ∧ (s.armed = true →
        ∃ t, muWrite a v s = (true, t) ∧ t.armed = false ∧ t = { s with mem := t.mem, armed := false }
          ∧ ∀ x, Memory.cell t.mem x = if x = a.toNat then v else Memory.cell s.mem x)

/-- The pairing of 20_memory.md R58 (decision D14, log entry 13): from the idle unit, any invocation and then any
other transfer what the second one asks for, once, and leave the unit idle. -/
def Obligations.SecondInvocationDecidesTheTransfer : Prop :=
  ∀ (s : State) (a b v x : Word16), s.armed = false →
    muRead b (muRead a s).2 = (some (memRead b s), s)
    ∧ muRead b (muWrite a x s).2 = (some (memRead b s), s)
    ∧ muWrite b v (muRead a s).2 = (true, memWrite b v s)
    ∧ muWrite b v (muWrite a x s).2 = (true, memWrite b v s)

/-- 20_memory.md R62: after a completed write of `v` to `a`, a completed read of `b` gives `v` if `b` is `a`, and
what `b` held before otherwise, whatever address the read's first invocation named. -/
def Obligations.CompletedReadSeesTheLatestWrite : Prop :=
  ∀ (s : State) (a b c v : Word16), s.armed = true →
    (muRead b (muRead c (muWrite a v s).2).2).1 = some (if b = a then v else memRead b s)

/-! ## The step as a whole -/

/-- A step runs the decoded rows: HALT alone on the zero word; else the eight rows of the fetched word, each once,
in the order of R110, after the flag reset, with the read-only check between AMUX and MARLD, and with the
increment of `pc` at the end. -/
def Obligations.StepRunsTheRowsOfTheFetchedWord : Prop :=
  ∀ (s : State) (w : Word32), s.status = .running → s.fetch = some w →
    (w = 0 → decodeRows w = [.halt] ∧ step s = exec .halt s.beginStep)
    ∧ (w ≠ 0 →
        ∃ mbrf amux marld alu sh cond wb mem,
          decodeRows w = [mbrf, amux, marld, alu, sh, cond, wb, mem]
          ∧ step s =
            andThen (exec mbrf s.beginStep) fun s =>
            andThen (exec amux s) fun s =>
            andThen (readOnlyCheck (decodeFields w).ens (decodeFields w).s s) fun s =>
            andThen (exec marld s) fun s =>
            andThen (exec alu s) fun s =>
            andThen (exec sh s) fun s =>
            andThen (exec cond s) fun s =>
            andThen (exec wb s) fun s =>
            andThen (exec mem s) fun s =>
            .next s.endStep)

/-- The step is the thirteen lines of R110, written in one piece and in the spec's arithmetic (`r110Step`), on the
machines R110 speaks of (running, `pc` below PROG_LEN). Aborted and done machines, to which R110 is not applied, are
refused by decisions D7 and D8 (R121, R214; log entries 5 and 6). -/
def Obligations.StepIsTheThirteenLinesOfR110 : Prop :=
  ∀ s : State, step s = r110Step s

/-- When there is no step (R121, R214; decisions D7 and D8, log entries 5 and 6): an aborted machine and a done one
are refused by name, a done one being a successful end; and nothing else is refused. -/
def Obligations.RefusedExactlyWhenAbortedOrDone : Prop :=
  ∀ s : State,
    (∀ c, s.status = .aborted c → step s = .refused (.machineAborted c) ∧ s.final = false)
    ∧ (s.status = .running → s.cfg.prog.length ≤ s.pc.toNat → step s = .refused .programDone ∧ s.final = true)
    ∧ ∀ r, step s = .refused r → (∃ c, s.status = .aborted c) ∨ s.cfg.prog.length ≤ s.pc.toNat

/-- R96 and R182: on a running machine that fetches `w`, whether the step aborts or completes is decided by the bits
of `w` and the policy, by the masks of R96 (policy: decision D2, log entry 2). -/
def Obligations.WordBitsDecideAbortOrCompletion : Prop :=
  ∀ (s : State) (w : Word32), s.status = .running → s.fetch = some w →
    (fatalWord s.cfg.wbPolicy w = true →
      ∃ left, step s = .fault (.readOnlyRegisterWrite (decodeFields w).s left))
    ∧ (fatalWord s.cfg.wbPolicy w = false → ∃ t, step s = .next t)

/-- 40_step_sequence.md R112 and 70_reset_and_hazards.md R215 (that the flags are cleared is decision D3, log entry
11): the halt word changes nothing but the flags, the machine is at a successful end, and it stays there. -/
def Obligations.HaltWordIsAFixedPoint : Prop :=
  ∀ s : State, s.status = .running → s.fetch = some 0 →
    ∃ t, step s = .next t ∧ t.negative = false ∧ t.zero = false ∧ (∀ r, t.reg r = s.reg r) ∧ t.pc = s.pc
      ∧ t.mem = s.mem ∧ t.armed = s.armed ∧ t.status = .running ∧ t.cfg = s.cfg
      ∧ t.final = true ∧ t.done = false ∧ step t = .next t

/-! ## The rows -/

/-- HALT as a row (R112; the flags by decision D3, log entry 11). -/
def Obligations.HaltRowClearsOnlyTheFlags : Prop :=
  ∀ s : State,
    exec .halt s = .next { s with negative := false, zero := false, datapath := Datapath.idle }

/-- R131: operand A unchanged, flags from it. Mask and match: mode numbers by the spec's D1 (log entry 10). -/
def Obligations.AluPassGivesOperandA : Prop :=
  ∀ (b : Reg) (s : State),
    (Instr.aluPass b).opMask = 0x18000000 ∧ (Instr.aluPass b).opMatch = 0x00000000
    ∧ ∃ r : Word16, r = s.reg s.datapath.operandA
      ∧ exec (.aluPass b) s =
        .next { s with datapath := { s.datapath with result := r }
                       negative := r.getLsbD 15, zero := decide (r.toNat = 0) }

/-- R132: addition modulo 65536, no overflow failure, flags from the wrapped result.
Mask and match: mode numbers by the spec's D1 (log entry 10). -/
def Obligations.AluAddWraps : Prop :=
  ∀ (b : Reg) (s : State),
    (Instr.aluAdd b).opMask = 0x18000000 ∧ (Instr.aluAdd b).opMatch = 0x08000000
    ∧ ∃ r : Word16, r.toNat = ((s.reg s.datapath.operandA).toNat + (s.reg b).toNat) % 65536
      ∧ exec (.aluAdd b) s =
        .next { s with datapath := { s.datapath with result := r }
                       negative := r.getLsbD 15, zero := decide (r.toNat = 0) }

/-- R133: bit by bit. Mask and match: mode numbers by the spec's D1 (log entry 10). -/
def Obligations.AluAndIsBitwise : Prop :=
  ∀ (b : Reg) (s : State),
    (Instr.aluAnd b).opMask = 0x18000000 ∧ (Instr.aluAnd b).opMatch = 0x10000000
    ∧ ∃ r : Word16, (∀ i, r.getLsbD i = ((s.reg s.datapath.operandA).getLsbD i && (s.reg b).getLsbD i))
      ∧ exec (.aluAnd b) s =
        .next { s with datapath := { s.datapath with result := r }
                       negative := r.getLsbD 15, zero := decide (r.toNat = 0) }

/-- R134: the complement of `a`; `b` does not matter. As a signed number it is `-a - 1`.
Mask and match: mode numbers by the spec's D1 (log entry 10). -/
def Obligations.AluNotComplementsOperandA : Prop :=
  ∀ (b : Reg) (s : State),
    (Instr.aluNot b).opMask = 0x18000000 ∧ (Instr.aluNot b).opMatch = 0x18000000
    ∧ ∃ r : Word16, r = s.reg s.datapath.operandA ^^^ 0xFFFF
      ∧ r.toInt = -(s.reg s.datapath.operandA).toInt - 1
      ∧ exec (.aluNot b) s =
        .next { s with datapath := { s.datapath with result := r }
                       negative := r.getLsbD 15, zero := decide (r.toNat = 0) }

/-- R141: no shift. Mask and match: mode numbers by the spec's D1 (log entry 10). -/
def Obligations.ShiftNoneGivesTheResult : Prop :=
  ∀ s : State,
    Instr.opMask .shNone = 0x06000000 ∧ Instr.opMatch .shNone = 0x00000000
    ∧ exec .shNone s = .next { s with datapath := { s.datapath with shifted := s.datapath.result } }

/-- R142: one place left, zero fill, bit 15 lost. Mask and match: mode numbers by the spec's D1 (log entry 10). -/
def Obligations.ShiftLeftDoubles : Prop :=
  ∀ s : State,
    Instr.opMask .shLsh = 0x06000000 ∧ Instr.opMatch .shLsh = 0x02000000
    ∧ ∃ v : Word16, v.toNat = 2 * s.datapath.result.toNat % 65536
      ∧ v.getLsbD 0 = false ∧ (∀ i, i < 15 → v.getLsbD (i + 1) = s.datapath.result.getLsbD i)
      ∧ exec .shLsh s = .next { s with datapath := { s.datapath with shifted := v } }

/-- R143: one place right, sign fill: half, rounded toward minus infinity.
Mask and match: mode numbers by the spec's D1 (log entry 10). -/
def Obligations.ShiftRightHalvesWithSign : Prop :=
  ∀ s : State,
    Instr.opMask .shRsh = 0x06000000 ∧ Instr.opMatch .shRsh = 0x04000000
    ∧ ∃ v : Word16, v.toInt = s.datapath.result.toInt / 2
      ∧ v.getLsbD 15 = s.datapath.result.getLsbD 15
      ∧ (∀ i, i < 15 → v.getLsbD i = s.datapath.result.getLsbD (i + 1))
      ∧ exec .shRsh s = .next { s with datapath := { s.datapath with shifted := v } }

/-- R144: exactly as SH.NONE. Mask and match: mode numbers by the spec's D1 (log entry 10). -/
def Obligations.ShiftSpareActsAsNone : Prop :=
  ∀ s : State,
    Instr.opMask .shSpare3 = 0x06000000 ∧ Instr.opMatch .shSpare3 = 0x06000000
    ∧ exec .shSpare3 s = .next { s with datapath := { s.datapath with shifted := s.datapath.result } }
    ∧ exec .shSpare3 s = exec .shNone s

/-- R151: nothing at step 10; with step 13, `pc` goes on by one modulo 256.
Mask and match: mode numbers by the spec's D1 (log entry 10). -/
def Obligations.CondNoneLeavesPc : Prop :=
  ∀ (addr : Word8) (s : State),
    (Instr.condNone addr).opMask = 0x60000000 ∧ (Instr.condNone addr).opMatch = 0x00000000
    ∧ exec (.condNone addr) s = .next s ∧ s.endStep.pc.toNat = (s.pc.toNat + 1) % 256

/-- R152: `pc <- ADDR` iff N. Mask and match: mode numbers by the spec's D1 (log entry 10). -/
def Obligations.CondNegativeBranches : Prop :=
  ∀ (addr : Word8) (s : State),
    (Instr.condJn addr).opMask = 0x60000000 ∧ (Instr.condJn addr).opMatch = 0x20000000
    ∧ exec (.condJn addr) s = .next { s with pc := if s.negative = true then addr else s.pc }

/-- R153: `pc <- ADDR` iff Z. Mask and match: mode numbers by the spec's D1 (log entry 10). -/
def Obligations.CondZeroBranches : Prop :=
  ∀ (addr : Word8) (s : State),
    (Instr.condJz addr).opMask = 0x60000000 ∧ (Instr.condJz addr).opMatch = 0x40000000
    ∧ exec (.condJz addr) s = .next { s with pc := if s.zero = true then addr else s.pc }

/-- R154: `pc <- ADDR`; with step 13 the step ends at ADDR + 1 modulo 256, so ADDR = 0xFF goes to index 0.
Mask and match: mode numbers by the spec's D1 (log entry 10). -/
def Obligations.CondGotoBranches : Prop :=
  ∀ (addr : Word8) (s : State),
    (Instr.condGoto addr).opMask = 0x60000000 ∧ (Instr.condGoto addr).opMatch = 0x60000000
    ∧ ∃ t, exec (.condGoto addr) s = .next t ∧ t = { s with pc := addr }
      ∧ t.endStep.pc.toNat = (addr.toNat + 1) % 256

/-- R114: AMUX.ABUS selects register `A`, AMUX.MAR register 3 whatever `A` is; the register is read later, so an
operand that is MAR sees a MAR load; and AMUX = 1 acts in every word as AMUX = 0 with A = 3. -/
def Obligations.AmuxSelectsOperandA : Prop :=
  (∀ (a : Reg) (s : State),
    exec (.amuxAbus a) s = .next { s with datapath := { s.datapath with operandA := a } }
    ∧ exec (.amuxMar a) s = .next { s with datapath := { s.datapath with operandA := .mar } }
    ∧ (Instr.amuxAbus a).opMask = 0x80000000 ∧ (Instr.amuxAbus a).opMatch = 0x00000000
    ∧ (Instr.amuxMar a).opMask = 0x80000000 ∧ (Instr.amuxMar a).opMatch = 0x80000000)
  ∧ (∀ (a : Reg) (s t : State) (v : Word16), exec (.amuxMar a) s = .next t → operandA (t.setReg .mar v) = v)
  ∧ ∀ (f : Fields) (s : State),
      executeFields { f with amux := true } s = executeFields { f with amux := false, a := .mar } s

/-- R115: MARLD.OFF does nothing; MARLD.ON copies register `B` into MAR, unshifted, whatever ENS is; a write-back
to MAR by the same word wins; a word that aborts at step 5 has not loaded MAR. -/
def Obligations.MarLoadCopiesRegisterB : Prop :=
  (∀ s : State,
    exec .marldOff s = .next s ∧ Instr.opMask .marldOff = 0x00800000 ∧ Instr.opMatch .marldOff = 0x00000000)
  ∧ (∀ (b : Reg) (s : State),
      (Instr.marldOn b).opMask = 0x00800000 ∧ (Instr.marldOn b).opMatch = 0x00800000
      ∧ ∃ t, exec (.marldOn b) s = .next t ∧ t.reg .mar = s.reg b ∧ (∀ r, r ≠ .mar → t.reg r = s.reg r)
        ∧ t = { s with regs := t.regs } ∧ (b = .mar → t = s))
  ∧ (∀ (f : Fields) (s t : State), f.marld = true → executeFields f s = .next t →
      t.reg .mar = if writesBack f s = true ∧ f.s = .mar then wordShifted f s else s.reg f.b)
  ∧ ∀ (f : Fields) (s left : State) (d : Reg), f.marld = true → f.ens = true →
      executeFields f s = .fault (.readOnlyRegisterWrite d left) → left.reg .mar = s.reg .mar

/-- WB.ON writes the shifted value to its destination and nowhere else (R161). The last clause is the model's (log
entry 24, DEDUCED from R110 and R23): the row by itself, outside a step, goes through the register file's `set` and
so faults on a read-only destination. In a step R161's "0 to 2 never get here" holds, since step 5 aborts first
(`ReadOnlyDestinationAbortsAtStepFive`). -/
def Obligations.WbOnWritesTheShiftedValue : Prop :=
  ∀ (d : Reg) (s : State),
    (Instr.wbOn d).opMask = 0x00100000 ∧ (Instr.wbOn d).opMatch = 0x00100000
    ∧ (readOnly d = false →
        ∃ t, exec (.wbOn d) s = .next t ∧ t.reg d = s.datapath.shifted ∧ (∀ r, r ≠ d → t.reg r = s.reg r)
          ∧ t = { s with regs := t.regs })
    ∧ (readOnly d = true → ∃ left, exec (.wbOn d) s = .fault (.readOnlyRegisterWrite d left))

/-- WB.OFF under both policies (R162 and R163; the policy is decision D2, log entry 2): nothing under `gated`,
whatever `S` is; under `unconditional` the write of WB.ON, fatal for a read-only destination. -/
def Obligations.WbOffFollowsThePolicy : Prop :=
  ∀ (d : Reg) (s : State),
    (s.cfg.wbPolicy = .gated → exec (.wbOff d) s = .next s)
    ∧ (s.cfg.wbPolicy = .unconditional → readOnly d = false →
        ∃ t, exec (.wbOff d) s = .next t ∧ t.reg d = s.datapath.shifted ∧ (∀ r, r ≠ d → t.reg r = s.reg r)
          ∧ t = { s with regs := t.regs })
    ∧ (s.cfg.wbPolicy = .unconditional → readOnly d = true →
        exec (.wbOff d) s =
          .fault (.readOnlyRegisterWrite d
            { s with status := .aborted (.readOnlyRegisterWrite d), datapath := Datapath.idle }))

/-- R170: no invocation when MS is 0, and otherwise exactly one, at address MAR with MBR as the datum. -/
def Obligations.MemNoneDoesNotInvokeTheUnit : Prop :=
  ∀ (rdwr : Bool) (s : State),
    (Instr.memNone rdwr).opMask = 0x00200000 ∧ (Instr.memNone rdwr).opMatch = 0x00000000
    ∧ exec (.memNone rdwr) s = .next s
    ∧ exec .memRd s =
        (match muRead (s.reg .mar) s with
        | (some v, t) => .next (t.setReg .mbr v)
        | (none, t) => .next t)
    ∧ exec .memWr s = .next (muWrite (s.reg .mar) (s.reg .mbr) s).2

/-- R171: phase 1 only arms; phase 2 copies the cell MAR addresses into MBR and disarms. -/
def Obligations.MemReadLoadsMbrInPhaseTwo : Prop :=
  ∀ s : State,
    Instr.opMask .memRd = 0x00600000 ∧ Instr.opMatch .memRd = 0x00600000
    ∧ (s.armed = false → exec .memRd s = .next { s with armed := true })
    ∧ (s.armed = true →
        ∃ t, exec .memRd s = .next t ∧ t.reg .mbr = Memory.cell s.mem (s.reg .mar).toNat
          ∧ (∀ r, r ≠ .mbr → t.reg r = s.reg r) ∧ t.armed = false
          ∧ t = { s with regs := t.regs, armed := false })

/-- R172: phase 1 only arms; phase 2 stores MBR in the cell MAR addresses and disarms. -/
def Obligations.MemWriteStoresMbrInPhaseTwo : Prop :=
  ∀ s : State,
    Instr.opMask .memWr = 0x00600000 ∧ Instr.opMatch .memWr = 0x00200000
    ∧ (s.armed = false → exec .memWr s = .next { s with armed := true })
    ∧ (s.armed = true →
        ∃ t, exec .memWr s = .next t ∧ t.armed = false ∧ t = { s with mem := t.mem, armed := false }
          ∧ ∀ a, Memory.cell t.mem a = if a = (s.reg .mar).toNat then s.reg .mbr else Memory.cell s.mem a)

/-- R94: neither reserved encoding traps or has an effect: MBRF.0 and MBRF.1 do nothing, a word acts the same with
bit 24 set or clear (but a word with only bit 24 set is no halt), SH = 3 acts as SH = 0, and MBR changes only by a
write-back to it or a completed read. -/
def Obligations.ReservedEncodingsHaveNoEffect : Prop :=
  (∀ s : State, exec .mbrf0 s = .next s ∧ exec .mbrf1 s = .next s)
  ∧ (∀ (f : Fields) (x : Bool) (s : State), executeFields { f with mbrf := x } s = executeFields f s)
  ∧ decodeRows 0x01000000 ≠ [.halt]
  ∧ (∀ (f : Fields) (s : State),
      executeFields { f with sh := .spare } s = executeFields { f with sh := .noOp } s)
  ∧ ∀ (f : Fields) (s t : State), executeFields f s = .next t → t.reg .mbr ≠ s.reg .mbr →
      (writesBack f s = true ∧ f.s = .mbr) ∨ completesRead f s = true

/-! ## Frames of the rows -/

/-- The rows that only steer the datapath or do nothing (AMUX.ABUS, AMUX.MAR, SH.NONE, SH.LSH, SH.RSH, SH.SPARE3,
MARLD.OFF, COND.NONE, MEM.NONE, MBRF.0, MBRF.1) leave every register, flag, cell, `pc`, `armed`, `status` and the
configuration as they were. -/
def Obligations.FrameOfTheSelectingRows : Prop :=
  ∀ (a : Reg) (addr : Word8) (x : Bool) (i : Instr) (s t : State),
    i ∈ [.amuxAbus a, .amuxMar a, .shNone, .shLsh, .shRsh, .shSpare3, .marldOff, .condNone addr, .memNone x,
      .mbrf0, .mbrf1] →
    exec i s = .next t →
    (∀ r, t.reg r = s.reg r) ∧ t.pc = s.pc ∧ t.negative = s.negative ∧ t.zero = s.zero
    ∧ (∀ a, Memory.cell t.mem a = Memory.cell s.mem a) ∧ t.armed = s.armed ∧ t.status = s.status ∧ t.cfg = s.cfg

/-- The ALU rows (ALU.PASS, ALU.ADD, ALU.AND, ALU.NOT) change, of the spec's state, the two flags alone; HALT the
flags alone too. -/
def Obligations.FrameOfTheAluRowsAndHalt : Prop :=
  ∀ (b : Reg) (i : Instr) (s t : State),
    i ∈ [.aluPass b, .aluAdd b, .aluAnd b, .aluNot b, .halt] →
    exec i s = .next t →
    (∀ r, t.reg r = s.reg r) ∧ t.pc = s.pc
    ∧ (∀ a, Memory.cell t.mem a = Memory.cell s.mem a) ∧ t.armed = s.armed ∧ t.status = s.status ∧ t.cfg = s.cfg

/-- The branching rows (COND.JN, COND.JZ, COND.GOTO) change `pc` alone. -/
def Obligations.FrameOfTheBranchRows : Prop :=
  ∀ (addr : Word8) (i : Instr) (s t : State),
    i ∈ [.condJn addr, .condJz addr, .condGoto addr] →
    exec i s = .next t →
    (∀ r, t.reg r = s.reg r) ∧ t.negative = s.negative ∧ t.zero = s.zero
    ∧ (∀ a, Memory.cell t.mem a = Memory.cell s.mem a) ∧ t.armed = s.armed ∧ t.status = s.status ∧ t.cfg = s.cfg

/-- The rows that write a register (MARLD.ON: MAR; WB.ON and WB.OFF: their destination `d`) change that register
alone; a constant register reads as before in every case. -/
def Obligations.FrameOfTheRegisterRows : Prop :=
  ∀ (b d : Reg) (i : Instr) (s t : State),
    (i = .marldOn b ∧ d = .mar) ∨ i = .wbOn d ∨ i = .wbOff d →
    exec i s = .next t →
    (∀ r, r ≠ d → t.reg r = s.reg r) ∧ (∀ r, readOnly r = true → t.reg r = s.reg r)
    ∧ t.pc = s.pc ∧ t.negative = s.negative ∧ t.zero = s.zero
    ∧ (∀ a, Memory.cell t.mem a = Memory.cell s.mem a) ∧ t.armed = s.armed ∧ t.status = s.status ∧ t.cfg = s.cfg

/-- The memory rows: MEM.RD changes MBR (in phase 2) and `armed`, and no cell; MEM.WR changes `armed` and, in phase
2, the one cell at the address `memAddress s`, and no register. -/
def Obligations.FrameOfTheMemoryRows : Prop :=
  ∀ s t : State,
    (exec .memRd s = .next t →
      (∀ r, r ≠ .mbr → t.reg r = s.reg r) ∧ (s.armed = false → t.reg .mbr = s.reg .mbr)
      ∧ (∀ a, Memory.cell t.mem a = Memory.cell s.mem a)
      ∧ t.pc = s.pc ∧ t.negative = s.negative ∧ t.zero = s.zero ∧ t.status = s.status ∧ t.cfg = s.cfg)
    ∧ (exec .memWr s = .next t →
      (∀ r, t.reg r = s.reg r)
      ∧ (∀ a, memAddress s = a → ∀ x, x ≠ a.toNat → Memory.cell t.mem x = Memory.cell s.mem x)
      ∧ (s.armed = false → ∀ x, Memory.cell t.mem x = Memory.cell s.mem x)
      ∧ t.pc = s.pc ∧ t.negative = s.negative ∧ t.zero = s.zero ∧ t.status = s.status ∧ t.cfg = s.cfg)

/-! ## Whole words -/

/-- What one word does (R110, R120), in closed form over the state the step starts from: for every nonzero word that
is not fatal the step completes, with every register, cell, flag, `pc` and `armed` as `finalReg`, `finalCell`,
`wordResult` and `finalPc` give them, and nothing else changed. The order of effects is in those functions: operands
after the MAR load, address and datum after the write-back, a completed read over a write-back to MBR. -/
def Obligations.WordCompletesWithItsFinalState : Prop :=
  ∀ (s : State) (w : Word32), Executes s w → fatalWord s.cfg.wbPolicy w = false →
    ∃ t, step s = .next t
      ∧ (∀ r, t.reg r = finalReg (decodeFields w) s r)
      ∧ (∀ a, Memory.cell t.mem a = finalCell (decodeFields w) s a)
      ∧ t.pc.toNat = finalPc (decodeFields w) s
      ∧ t.negative = decide ((wordResult (decodeFields w) s).toInt < 0)
      ∧ t.zero = decide ((wordResult (decodeFields w) s).toNat = 0)
      ∧ t.armed = (s.armed ^^ (decodeFields w).ms)
      ∧ t.status = .running ∧ t.cfg = s.cfg ∧ t.datapath = Datapath.idle

/-- R27: a halt leaves `pc`; any other completed step ends at the old `pc` plus one, or at ADDR plus one when the
word's branch is taken, modulo 256. -/
def Obligations.PcAfterAStep : Prop :=
  ∀ (s t : State) (w : Word32), s.status = .running → s.fetch = some w → step s = .next t →
    (w = 0 → t.pc = s.pc)
    ∧ (w ≠ 0 →
        (branches (decodeFields w) s = false → t.pc.toNat = (s.pc.toNat + 1) % 256)
        ∧ (branches (decodeFields w) s = true → t.pc.toNat = ((decodeFields w).addr.toNat + 1) % 256))

/-- R117: every word that reaches step 8 sets both flags from its ALU result, never both of them, whatever the
shifter does; so does one that aborts afterwards, at step 11. -/
def Obligations.FlagsComeFromTheAluResult : Prop :=
  ∀ (s t : State) (w : Word32) (d : Reg), Executes s w →
    (step s = .next t ∨ ((decodeFields w).ens = false ∧ step s = .fault (.readOnlyRegisterWrite d t))) →
    t.negative = (wordResult (decodeFields w) s).getLsbD 15
    ∧ t.zero = decide (wordResult (decodeFields w) s = 0x0000)
    ∧ ¬(t.negative = true ∧ t.zero = true)

/-- R160: a word with ENS = 1 and S < 3 aborts at step 5 under both policies and on every data: the flags are clear,
and nothing else has changed: no register, no cell, `pc` at the offending word, the memory unit not invoked. -/
def Obligations.ReadOnlyDestinationAbortsAtStepFive : Prop :=
  ∀ (s : State) (w : Word32), Executes s w →
    (decodeFields w).ens = true → (decodeFields w).s.toBits.toNat < 3 →
    step s = .fault (.readOnlyRegisterWrite (decodeFields w).s
      { s with negative := false, zero := false, datapath := Datapath.idle
               status := .aborted (.readOnlyRegisterWrite (decodeFields w).s) })

/-- R163, the four cases under `unconditional`: with S >= 3 the shifted value is written whatever ENS is (and then a
completed read may overwrite MBR); with S < 3 the word aborts, at step 5 when ENS = 1 and at step 11 when ENS = 0,
where steps 1 to 10 have happened and steps 12 and 13 have not. -/
def Obligations.UnconditionalPolicyWritesOrAborts : Prop :=
  ∀ (s : State) (w : Word32), Executes s w → s.cfg.wbPolicy = .unconditional →
    (3 ≤ (decodeFields w).s.toBits.toNat →
      ∃ t, step s = .next t
        ∧ ((decodeFields w).s = .mbr → completesRead (decodeFields w) s = true →
            t.reg .mbr = Memory.cell s.mem (transferAddress (decodeFields w) s))
        ∧ ((decodeFields w).s ≠ .mbr ∨ completesRead (decodeFields w) s = false →
            t.reg (decodeFields w).s = wordShifted (decodeFields w) s))
    ∧ ((decodeFields w).s.toBits.toNat < 3 → (decodeFields w).ens = true →
      ∃ left, step s = .fault (.readOnlyRegisterWrite (decodeFields w).s left)
        ∧ left.negative = false ∧ left.zero = false ∧ (∀ r, left.reg r = s.reg r) ∧ left.pc = s.pc
        ∧ left.mem = s.mem ∧ left.armed = s.armed)
    ∧ ((decodeFields w).s.toBits.toNat < 3 → (decodeFields w).ens = false →
      ∃ left, step s = .fault (.readOnlyRegisterWrite (decodeFields w).s left)
        ∧ (∀ r, left.reg r = regAfterLoad (decodeFields w) s r)
        ∧ left.negative = (wordResult (decodeFields w) s).getLsbD 15
        ∧ left.zero = decide (wordResult (decodeFields w) s = 0x0000)
        ∧ left.pc = (if branches (decodeFields w) s = true then (decodeFields w).addr else s.pc)
        ∧ left.mem = s.mem ∧ left.armed = s.armed)

/-- The ignored fields of 30_encoding.md R95 (its list is derived there; S under `gated` is decision D2, log entry
2): changing one changes nothing that executing the word does. -/
def Obligations.IgnoredFieldsChangeNothing : Prop :=
  ∀ (f : Fields) (s : State),
    (∀ x, branches f s = false → executeFields { f with addr := x } s = executeFields f s)
    ∧ (∀ x, f.amux = true → executeFields { f with a := x } s = executeFields f s)
    ∧ (∀ x, f.marld = false → f.alu = .noOp ∨ f.alu = .bitNot →
        executeFields { f with b := x } s = executeFields f s)
    ∧ (∀ x, f.ens = false → s.cfg.wbPolicy = .gated → executeFields { f with s := x } s = executeFields f s)
    ∧ (∀ x, f.ms = false → executeFields { f with rdwr := x } s = executeFields f s)
    ∧ (∀ x, executeFields { f with mbrf := x } s = executeFields f s)

/-- Aborts (R185, R189; decision D8, log entry 4): the only fault of a step is `ReadOnlyRegisterWrite`; the machine it
leaves is aborted with that cause, its memory, memory unit and configuration untouched, and has no further step. -/
def Obligations.AbortedMachineHasNoFurtherStep : Prop :=
  ∀ (s : State) (e : Fault), step s = .fault e →
    ∃ d left, e = .readOnlyRegisterWrite d left ∧ readOnly d = true
      ∧ left.status = .aborted (.readOnlyRegisterWrite d)
      ∧ left.mem = s.mem ∧ left.armed = s.armed ∧ left.cfg = s.cfg ∧ left.final = false
      ∧ step left = .refused (.machineAborted (.readOnlyRegisterWrite d))

/-! ## Invariants -/

/-- The invariant holds at reset. -/
def Obligations.ResetHasTheInvariant : Prop := State.reset.Inv

/-- From every state that meets the invariant a step gives one that meets it: the memory stays canonical, both
flags are never set, no step is left half done; and the program and the policy never change (R33, R65). -/
def Obligations.StepKeepsTheInvariantAndTheProgram : Prop :=
  ∀ s t : State, s.Inv → step s = .next t → t.Inv ∧ t.cfg = s.cfg

/-- The phase of the memory unit is the parity of the memory words executed (20_memory.md R59, 70_reset_and_hazards.md
R221; decisions D14, D15, log entries 13 and 14): over every run of `n` steps from every state. -/
def Obligations.ArmedIsTheParityOfMemoryWords : Prop :=
  ∀ (n : Nat) (s t : State), runSteps n s = .next t →
    t.armed = (s.armed ^^ decide (memoryWords n s % 2 = 1))

/-- No step reads what an earlier step left in the datapath, so the model's own field carries nothing between steps
(log entry 17), and no word sees the flags of an earlier word (R28). -/
def Obligations.StepIgnoresOldDatapathAndFlags : Prop :=
  ∀ (s : State) (d : Datapath) (n z : Bool),
    step { s with datapath := d, negative := n, zero := z } = step s

/-- Supplying a word where the next step fetches (the model's own, log entry 1): the program holds the word at `pc`,
every other word it had, zero words in the gap between its old end and `pc`, and nothing beyond; and the very next
step runs that word. -/
def Obligations.SuppliedWordRunsNext : Prop :=
  ∀ (s : State) (w : Nat), w < 2 ^ 32 →
    step (s.withFetchWord 32 w) = executeWord (BitVec.ofNat 32 w) (s.withFetchWord 32 w).beginStep
    ∧ (s.withFetchWord 32 w).cfg.prog[s.pc.toNat]? = some (BitVec.ofNat 32 w)
    ∧ (∀ i, i < s.cfg.prog.length → i ≠ s.pc.toNat → (s.withFetchWord 32 w).cfg.prog[i]? = s.cfg.prog[i]?)
    ∧ (∀ i, s.cfg.prog.length ≤ i → i < s.pc.toNat → (s.withFetchWord 32 w).cfg.prog[i]? = some 0)
    ∧ (s.withFetchWord 32 w).cfg.prog.length = max s.cfg.prog.length (s.pc.toNat + 1)
    ∧ s.withFetchWord 32 w
      = { s with status := .running, cfg := { s.cfg with prog := (s.withFetchWord 32 w).cfg.prog } }
end

