-- ==== Sys2Proof/Laws/State.lean ====
section
/-! SUPPORT. Each field of the state after each named update: true by definition, and cited instead of unfolding a
record update. -/

namespace Sys2Proof.Machine

variable (s : State)

/-! ## `setReg` -/

@[simp] theorem setReg_regs (r : Reg) (v : Word16) : (s.setReg r v).regs = s.regs.put v r := rfl
@[simp] theorem setReg_pc (r : Reg) (v : Word16) : (s.setReg r v).pc = s.pc := rfl
@[simp] theorem setReg_negative (r : Reg) (v : Word16) : (s.setReg r v).negative = s.negative := rfl
@[simp] theorem setReg_zero (r : Reg) (v : Word16) : (s.setReg r v).zero = s.zero := rfl
@[simp] theorem setReg_mem (r : Reg) (v : Word16) : (s.setReg r v).mem = s.mem := rfl
@[simp] theorem setReg_armed (r : Reg) (v : Word16) : (s.setReg r v).armed = s.armed := rfl
@[simp] theorem setReg_status (r : Reg) (v : Word16) : (s.setReg r v).status = s.status := rfl
@[simp] theorem setReg_cfg (r : Reg) (v : Word16) : (s.setReg r v).cfg = s.cfg := rfl
@[simp] theorem setReg_datapath (r : Reg) (v : Word16) : (s.setReg r v).datapath = s.datapath := rfl

/-! ## `setPc` -/

@[simp] theorem setPc_regs (t : Word8) : (s.setPc t).regs = s.regs := rfl
@[simp] theorem setPc_pc (t : Word8) : (s.setPc t).pc = t := rfl
@[simp] theorem setPc_negative (t : Word8) : (s.setPc t).negative = s.negative := rfl
@[simp] theorem setPc_zero (t : Word8) : (s.setPc t).zero = s.zero := rfl
@[simp] theorem setPc_mem (t : Word8) : (s.setPc t).mem = s.mem := rfl
@[simp] theorem setPc_armed (t : Word8) : (s.setPc t).armed = s.armed := rfl
@[simp] theorem setPc_status (t : Word8) : (s.setPc t).status = s.status := rfl
@[simp] theorem setPc_cfg (t : Word8) : (s.setPc t).cfg = s.cfg := rfl
@[simp] theorem setPc_datapath (t : Word8) : (s.setPc t).datapath = s.datapath := rfl
@[simp] theorem setPc_reg (t : Word8) (q : Reg) : (s.setPc t).reg q = s.reg q := by cases q <;> rfl

/-! ## `beginStep` -/

@[simp] theorem beginStep_regs : s.beginStep.regs = s.regs := rfl
@[simp] theorem beginStep_pc : s.beginStep.pc = s.pc := rfl
@[simp] theorem beginStep_negative : s.beginStep.negative = false := rfl
@[simp] theorem beginStep_zero : s.beginStep.zero = false := rfl
@[simp] theorem beginStep_mem : s.beginStep.mem = s.mem := rfl
@[simp] theorem beginStep_armed : s.beginStep.armed = s.armed := rfl
@[simp] theorem beginStep_status : s.beginStep.status = s.status := rfl
@[simp] theorem beginStep_cfg : s.beginStep.cfg = s.cfg := rfl
@[simp] theorem beginStep_datapath : s.beginStep.datapath = Datapath.idle := rfl
@[simp] theorem beginStep_reg (q : Reg) : s.beginStep.reg q = s.reg q := by cases q <;> rfl

/-! ## `endStep` -/

@[simp] theorem endStep_regs : s.endStep.regs = s.regs := rfl
@[simp] theorem endStep_pc : s.endStep.pc = s.pc + 1 := rfl
@[simp] theorem endStep_negative : s.endStep.negative = s.negative := rfl
@[simp] theorem endStep_zero : s.endStep.zero = s.zero := rfl
@[simp] theorem endStep_mem : s.endStep.mem = s.mem := rfl
@[simp] theorem endStep_armed : s.endStep.armed = s.armed := rfl
@[simp] theorem endStep_status : s.endStep.status = s.status := rfl
@[simp] theorem endStep_cfg : s.endStep.cfg = s.cfg := rfl
@[simp] theorem endStep_datapath : s.endStep.datapath = Datapath.idle := rfl
@[simp] theorem endStep_reg (q : Reg) : s.endStep.reg q = s.reg q := by cases q <;> rfl

/-! ## `abort` -/

@[simp] theorem abort_regs (c : Cause) : (s.abort c).regs = s.regs := rfl
@[simp] theorem abort_pc (c : Cause) : (s.abort c).pc = s.pc := rfl
@[simp] theorem abort_negative (c : Cause) : (s.abort c).negative = s.negative := rfl
@[simp] theorem abort_zero (c : Cause) : (s.abort c).zero = s.zero := rfl
@[simp] theorem abort_mem (c : Cause) : (s.abort c).mem = s.mem := rfl
@[simp] theorem abort_armed (c : Cause) : (s.abort c).armed = s.armed := rfl
@[simp] theorem abort_status (c : Cause) : (s.abort c).status = .aborted c := rfl
@[simp] theorem abort_cfg (c : Cause) : (s.abort c).cfg = s.cfg := rfl
@[simp] theorem abort_datapath (c : Cause) : (s.abort c).datapath = Datapath.idle := rfl
@[simp] theorem abort_reg (c : Cause) (q : Reg) : (s.abort c).reg q = s.reg q := by cases q <;> rfl

/-! ## `memWrite` -/

@[simp] theorem memWrite_regs (a v : Word16) : (memWrite a v s).regs = s.regs := rfl
@[simp] theorem memWrite_pc (a v : Word16) : (memWrite a v s).pc = s.pc := rfl
@[simp] theorem memWrite_negative (a v : Word16) : (memWrite a v s).negative = s.negative := rfl
@[simp] theorem memWrite_zero (a v : Word16) : (memWrite a v s).zero = s.zero := rfl
@[simp] theorem memWrite_mem (a v : Word16) : (memWrite a v s).mem = Memory.put s.mem a.toNat v := rfl
@[simp] theorem memWrite_armed (a v : Word16) : (memWrite a v s).armed = s.armed := rfl
@[simp] theorem memWrite_status (a v : Word16) : (memWrite a v s).status = s.status := rfl
@[simp] theorem memWrite_cfg (a v : Word16) : (memWrite a v s).cfg = s.cfg := rfl
@[simp] theorem memWrite_datapath (a v : Word16) : (memWrite a v s).datapath = s.datapath := rfl
@[simp] theorem memWrite_reg (a v : Word16) (q : Reg) : (memWrite a v s).reg q = s.reg q := by cases q <;> rfl

/-! ## `selectA` -/

@[simp] theorem selectA_regs (r : Reg) : (selectA r s).regs = s.regs := rfl
@[simp] theorem selectA_pc (r : Reg) : (selectA r s).pc = s.pc := rfl
@[simp] theorem selectA_negative (r : Reg) : (selectA r s).negative = s.negative := rfl
@[simp] theorem selectA_zero (r : Reg) : (selectA r s).zero = s.zero := rfl
@[simp] theorem selectA_mem (r : Reg) : (selectA r s).mem = s.mem := rfl
@[simp] theorem selectA_armed (r : Reg) : (selectA r s).armed = s.armed := rfl
@[simp] theorem selectA_status (r : Reg) : (selectA r s).status = s.status := rfl
@[simp] theorem selectA_cfg (r : Reg) : (selectA r s).cfg = s.cfg := rfl
@[simp] theorem selectA_datapath (r : Reg) : (selectA r s).datapath = { s.datapath with operandA := r } := rfl
@[simp] theorem selectA_reg (r : Reg) (q : Reg) : (selectA r s).reg q = s.reg q := by cases q <;> rfl

/-! ## `setFlags` -/

@[simp] theorem setFlags_regs (r : Word16) : (setFlags r s).regs = s.regs := rfl
@[simp] theorem setFlags_pc (r : Word16) : (setFlags r s).pc = s.pc := rfl
@[simp] theorem setFlags_negative (r : Word16) : (setFlags r s).negative = negativeOf r := rfl
@[simp] theorem setFlags_zero (r : Word16) : (setFlags r s).zero = zeroOf r := rfl
@[simp] theorem setFlags_mem (r : Word16) : (setFlags r s).mem = s.mem := rfl
@[simp] theorem setFlags_armed (r : Word16) : (setFlags r s).armed = s.armed := rfl
@[simp] theorem setFlags_status (r : Word16) : (setFlags r s).status = s.status := rfl
@[simp] theorem setFlags_cfg (r : Word16) : (setFlags r s).cfg = s.cfg := rfl
@[simp] theorem setFlags_datapath (r : Word16) : (setFlags r s).datapath = s.datapath := rfl
@[simp] theorem setFlags_reg (r : Word16) (q : Reg) : (setFlags r s).reg q = s.reg q := by cases q <;> rfl

/-! ## `aluFinish` -/

@[simp] theorem aluFinish_regs (r : Word16) : (aluFinish r s).regs = s.regs := rfl
@[simp] theorem aluFinish_pc (r : Word16) : (aluFinish r s).pc = s.pc := rfl
@[simp] theorem aluFinish_negative (r : Word16) : (aluFinish r s).negative = negativeOf r := rfl
@[simp] theorem aluFinish_zero (r : Word16) : (aluFinish r s).zero = zeroOf r := rfl
@[simp] theorem aluFinish_mem (r : Word16) : (aluFinish r s).mem = s.mem := rfl
@[simp] theorem aluFinish_armed (r : Word16) : (aluFinish r s).armed = s.armed := rfl
@[simp] theorem aluFinish_status (r : Word16) : (aluFinish r s).status = s.status := rfl
@[simp] theorem aluFinish_cfg (r : Word16) : (aluFinish r s).cfg = s.cfg := rfl
@[simp] theorem aluFinish_datapath (r : Word16) : (aluFinish r s).datapath = { s.datapath with result := r } := rfl
@[simp] theorem aluFinish_reg (r : Word16) (q : Reg) : (aluFinish r s).reg q = s.reg q := by cases q <;> rfl

/-! ## `setShifted` -/

@[simp] theorem setShifted_regs (v : Word16) : (setShifted v s).regs = s.regs := rfl
@[simp] theorem setShifted_pc (v : Word16) : (setShifted v s).pc = s.pc := rfl
@[simp] theorem setShifted_negative (v : Word16) : (setShifted v s).negative = s.negative := rfl
@[simp] theorem setShifted_zero (v : Word16) : (setShifted v s).zero = s.zero := rfl
@[simp] theorem setShifted_mem (v : Word16) : (setShifted v s).mem = s.mem := rfl
@[simp] theorem setShifted_armed (v : Word16) : (setShifted v s).armed = s.armed := rfl
@[simp] theorem setShifted_status (v : Word16) : (setShifted v s).status = s.status := rfl
@[simp] theorem setShifted_cfg (v : Word16) : (setShifted v s).cfg = s.cfg := rfl
@[simp] theorem setShifted_datapath (v : Word16) : (setShifted v s).datapath = { s.datapath with shifted := v } := rfl
@[simp] theorem setShifted_reg (v : Word16) (q : Reg) : (setShifted v s).reg q = s.reg q := by cases q <;> rfl

end Sys2Proof.Machine
end

