-- ==== Sys2Proof/Laws/Registers.lean ====
section
/-! SUPPORT. The register file: reading after writing, the constants, and the indices of the slots
(spec/10_state.md R21 to R23). -/

namespace Sys2Proof.Machine

/-- A write changes the slot it names, if that slot is writable, and no other. -/
theorem reg_setReg (s : State) (r q : Reg) (v : Word16) :
    (s.setReg r v).reg q = if q = r ∧ readOnly r = false then v else s.reg q := by
  cases r <;> cases q <;> simp [State.reg, State.setReg, Registers.put, readOnly]

theorem reg_setReg_self (s : State) (r : Reg) (v : Word16) (h : readOnly r = false) :
    (s.setReg r v).reg r = v := by
  simp [reg_setReg, h]

theorem reg_setReg_of_ne (s : State) (r q : Reg) (v : Word16) (h : q ≠ r) :
    (s.setReg r v).reg q = s.reg q := by
  simp [reg_setReg, h]

/-- The register file is known by what its slots read. -/
theorem regs_ext (s t : State) (h : ∀ r, s.reg r = t.reg r) : s.regs = t.regs := by
  obtain ⟨sr, _⟩ := s
  obtain ⟨tr, _⟩ := t
  cases sr
  cases tr
  simp only [Registers.mk.injEq]
  exact ⟨h .mar, h .r4, h .r5, h .r6, h .r7, h .r8, h .r9, h .r10, h .r11, h .r12, h .r13, h .r14, h .mbr⟩

@[simp] theorem readOnly_mar : readOnly .mar = false := rfl

@[simp] theorem readOnly_mbr : readOnly .mbr = false := rfl

@[simp] theorem reg_zero (s : State) : s.reg .zero = 0x0000 := rfl

@[simp] theorem reg_one (s : State) : s.reg .one = 0x0001 := rfl

@[simp] theorem reg_mone (s : State) : s.reg .mone = 0xFFFF := rfl

/-- The checked write answers one of two things. -/
theorem writeReg_eq (r : Reg) (v : Word16) (s : State) :
    (readOnly r = false ∧ writeReg r v s = .next (s.setReg r v))
      ∨ (readOnly r = true ∧ writeReg r v s = raiseReadOnly r s) := by
  cases h : readOnly r <;> simp [writeReg, h]

@[simp] theorem ofBits_toBits (r : Reg) : Reg.ofBits r.toBits = r := by
  cases r <;> rfl

@[simp] theorem toBits_ofBits (v : BitVec 4) : (Reg.ofBits v).toBits = v := by
  revert v
  decide

theorem readOnly_iff_index (r : Reg) : readOnly r = decide (r.toBits.toNat < 3) := by
  cases r <;> rfl

theorem regOfIndex_toBits (r : Reg) : regOfIndex r.toBits.toNat = some r := by
  cases r <;> rfl

theorem regOfIndex_eq_none (i : Nat) (h : 16 ≤ i) : regOfIndex i = none := by
  simp [regOfIndex, Nat.not_lt.mpr h]

/-- A slot is named by its own index and no other. -/
theorem regOfIndex_eq_some (i : Nat) (r : Reg) (h : regOfIndex i = some r) : i = r.toBits.toNat := by
  unfold regOfIndex at h
  split at h
  · next hi =>
    have h2 : Reg.ofBits (BitVec.ofNat 4 i) = r := by simpa using h
    rw [← h2, toBits_ofBits, BitVec.toNat_ofNat, Nat.mod_eq_of_lt (by omega)]
  · simp at h

end Sys2Proof.Machine
end

