-- ==== Sys2Proof/Laws/Encoding.lean ====
section
/-! SUPPORT. The mode numbers and the thirteen fields survive encoding, and the word of a field tuple is
the words of its eight rows together (spec/30_encoding.md R84 to R90, R101). -/

namespace Sys2Proof

@[simp] theorem AluMode.ofBits_toBits (v : AluMode) : AluMode.ofBits v.toBits = v := by cases v <;> rfl

@[simp] theorem AluMode.toBits_ofBits (v : BitVec 2) : (AluMode.ofBits v).toBits = v := by revert v; decide

@[simp] theorem ShMode.ofBits_toBits (v : ShMode) : ShMode.ofBits v.toBits = v := by cases v <;> rfl

@[simp] theorem ShMode.toBits_ofBits (v : BitVec 2) : (ShMode.ofBits v).toBits = v := by revert v; decide

@[simp] theorem CondMode.ofBits_toBits (v : CondMode) : CondMode.ofBits v.toBits = v := by cases v <;> rfl

@[simp] theorem CondMode.toBits_ofBits (v : BitVec 2) : (CondMode.ofBits v).toBits = v := by revert v; decide

variable (f : Fields)

theorem encodeFields_addr : bitGetMany (encodeFields f) 0 8 = f.addr := by
  apply BitVec.eq_of_getLsbD_eq
  intro i hi
  simp only [encodeFields, bitGetMany]
  interval_cases i <;> simp

theorem encodeFields_a : bitGetMany (encodeFields f) 8 12 = f.a.toBits := by
  apply BitVec.eq_of_getLsbD_eq
  intro i hi
  simp only [encodeFields, bitGetMany]
  interval_cases i <;> simp

theorem encodeFields_b : bitGetMany (encodeFields f) 12 16 = f.b.toBits := by
  apply BitVec.eq_of_getLsbD_eq
  intro i hi
  simp only [encodeFields, bitGetMany]
  interval_cases i <;> simp

theorem encodeFields_s : bitGetMany (encodeFields f) 16 20 = f.s.toBits := by
  apply BitVec.eq_of_getLsbD_eq
  intro i hi
  simp only [encodeFields, bitGetMany]
  interval_cases i <;> simp

theorem encodeFields_sh : bitGetMany (encodeFields f) 25 27 = f.sh.toBits := by
  apply BitVec.eq_of_getLsbD_eq
  intro i hi
  simp only [encodeFields, bitGetMany]
  interval_cases i <;> simp

theorem encodeFields_alu : bitGetMany (encodeFields f) 27 29 = f.alu.toBits := by
  apply BitVec.eq_of_getLsbD_eq
  intro i hi
  simp only [encodeFields, bitGetMany]
  interval_cases i <;> simp

theorem encodeFields_cond : bitGetMany (encodeFields f) 29 31 = f.cond.toBits := by
  apply BitVec.eq_of_getLsbD_eq
  intro i hi
  simp only [encodeFields, bitGetMany]
  interval_cases i <;> simp

/-- Decoding the word of a field tuple gives the tuple. -/
theorem decodeFields_encodeFields : decodeFields (encodeFields f) = f := by
  unfold decodeFields
  rw [encodeFields_addr, encodeFields_a, encodeFields_b, encodeFields_s, encodeFields_sh, encodeFields_alu,
    encodeFields_cond]
  simp [bitGet, encodeFields, Machine.ofBits_toBits]

/-! ## The words of the rows -/

theorem encode_aluRow :
    encode f.aluRow = f.alu.toBits.setWidth 32 <<< 27 ||| f.b.toBits.setWidth 32 <<< 12 := by
  unfold Fields.aluRow
  cases f.alu <;> rfl

theorem encode_shRow : encode f.shRow = f.sh.toBits.setWidth 32 <<< 25 := by
  unfold Fields.shRow
  cases f.sh <;> rfl

theorem encode_condRow : encode f.condRow = f.cond.toBits.setWidth 32 <<< 29 ||| f.addr.setWidth 32 := by
  unfold Fields.condRow
  cases f.cond <;> rfl

theorem encode_amuxRow :
    encode f.amuxRow = (BitVec.ofBool f.amux).setWidth 32 <<< 31 ||| f.a.toBits.setWidth 32 <<< 8 := by
  unfold Fields.amuxRow
  cases f.amux <;> rfl

theorem encode_marldRow :
    encode f.marldRow =
      (BitVec.ofBool f.marld).setWidth 32 <<< 23 ||| (if f.marld then f.b.toBits.setWidth 32 <<< 12 else 0) := by
  unfold Fields.marldRow
  cases f.marld <;> rfl

theorem encode_wbRow :
    encode f.wbRow = (BitVec.ofBool f.ens).setWidth 32 <<< 20 ||| f.s.toBits.setWidth 32 <<< 16 := by
  unfold Fields.wbRow
  cases f.ens <;> rfl

theorem encode_memRow :
    encode f.memRow = (BitVec.ofBool f.ms).setWidth 32 <<< 21 ||| (BitVec.ofBool f.rdwr).setWidth 32 <<< 22 := by
  unfold Fields.memRow
  cases f.ms <;> cases f.rdwr <;> rfl

theorem encode_mbrfRow : encode f.mbrfRow = (BitVec.ofBool f.mbrf).setWidth 32 <<< 24 := by
  unfold Fields.mbrfRow
  cases f.mbrf <;> rfl

/-- The rows of a field tuple together make the word of R85; the `B` field, which two rows may carry, falls
on itself. -/
theorem assemble_rows : assemble f.rows = encodeFields f := by
  unfold assemble Fields.rows encodeFields
  simp only [List.foldr, encode_aluRow, encode_shRow, encode_condRow, encode_amuxRow, encode_marldRow, encode_wbRow,
    encode_memRow, encode_mbrfRow]
  generalize f.alu.toBits.setWidth 32 <<< 27 = alu
  generalize f.b.toBits.setWidth 32 <<< 12 = b
  generalize f.sh.toBits.setWidth 32 <<< 25 = sh
  generalize f.cond.toBits.setWidth 32 <<< 29 = cond
  generalize f.addr.setWidth 32 = addr
  generalize f.a.toBits.setWidth 32 <<< 8 = a
  generalize f.s.toBits.setWidth 32 <<< 16 = s
  apply BitVec.eq_of_getLsbD_eq
  intro i hi
  simp only [BitVec.getLsbD_or]
  cases hm : f.marld <;> (simp; ac_nf)

theorem busBAgrees_rows : busBAgrees f.marldRow f.aluRow = true := by
  unfold Fields.marldRow Fields.aluRow
  cases f.marld <;> cases f.alu <;> simp [busBAgrees]

theorem rows_groups :
    f.mbrfRow.group = .mbrf ∧ f.amuxRow.group = .amux ∧ f.marldRow.group = .marld ∧ f.aluRow.group = .alu
      ∧ f.shRow.group = .sh ∧ f.condRow.group = .cond ∧ f.wbRow.group = .wb ∧ f.memRow.group = .mem := by
  unfold Fields.mbrfRow Fields.amuxRow Fields.marldRow Fields.aluRow Fields.shRow Fields.condRow Fields.wbRow
    Fields.memRow
  refine ⟨?_, ?_, ?_, ?_, ?_, ?_, ?_, ?_⟩
  · cases f.mbrf <;> rfl
  · cases f.amux <;> rfl
  · cases f.marld <;> rfl
  · cases f.alu <;> rfl
  · cases f.sh <;> rfl
  · cases f.cond <;> rfl
  · cases f.ens <;> rfl
  · cases f.ms <;> cases f.rdwr <;> rfl

end Sys2Proof
end

