-- ==== Sys2Proof/Laws/Memory.lean ====
section
/-! SUPPORT. The data memory: a read after a write, and the canonical form every memory operation keeps
(spec/20_memory.md R54, R56, R57). -/

namespace Sys2Proof.Machine

theorem cell_erase_self (m : Memory) (a : Nat) : Memory.cell (Memory.erase m a) a = 0 := by
  induction m with
  | nil => rfl
  | cons p rest ih =>
    by_cases h : p.1 = a
    · simpa [Memory.erase, h] using ih
    · simpa [Memory.erase, Memory.cell, h] using ih

theorem cell_erase_of_ne (m : Memory) (a b : Nat) (hab : b ≠ a) :
    Memory.cell (Memory.erase m a) b = Memory.cell m b := by
  induction m with
  | nil => rfl
  | cons p rest ih =>
    by_cases h : p.1 = a
    · have hb : p.1 ≠ b := fun e => hab (e ▸ h)
      simpa [Memory.erase, Memory.cell, h, hab.symm, hb] using ih
    · by_cases hb : p.1 = b
      · simp [Memory.erase, Memory.cell, hb, hab]
      · simpa [Memory.erase, Memory.cell, h, hb] using ih

theorem cell_insert_of_ne (m : Memory) (a b : Nat) (v : Word16) (hab : b ≠ a) :
    Memory.cell (Memory.insert a v m) b = Memory.cell m b := by
  induction m with
  | nil => simp [Memory.insert, Memory.cell, hab.symm]
  | cons p rest ih =>
    by_cases h : a < p.1
    · simp [Memory.insert, Memory.cell, h, hab.symm]
    · simp [Memory.insert, Memory.cell, h, ih]

theorem cell_insert_self (m : Memory) (a : Nat) (v : Word16) (h : ∀ p ∈ m, p.1 ≠ a) :
    Memory.cell (Memory.insert a v m) a = v := by
  induction m with
  | nil => simp [Memory.insert, Memory.cell]
  | cons p rest ih =>
    have hp : p.1 ≠ a := h p (by simp)
    have hr := ih (fun q hq => h q (by simp [hq]))
    by_cases hlt : a < p.1
    · simp [Memory.insert, Memory.cell, hlt]
    · simp [Memory.insert, Memory.cell, hlt, hp, hr]

theorem not_mem_erase (m : Memory) (a : Nat) : ∀ p ∈ Memory.erase m a, p.1 ≠ a := by
  intro p hp
  simpa using (List.mem_filter.mp hp).2

/-- A cell after a write: the value written at its own address, what it was at every other. -/
theorem cell_put (m : Memory) (a b : Nat) (v : Word16) :
    Memory.cell (Memory.put m a v) b = if b = a then v else Memory.cell m b := by
  unfold Memory.put
  split
  · next hv =>
    by_cases hb : b = a
    · rw [if_pos hb, hb, cell_erase_self, hv]
    · rw [if_neg hb, cell_erase_of_ne m a b hb]
  · by_cases hb : b = a
    · rw [if_pos hb, hb, cell_insert_self _ _ _ (not_mem_erase m a)]
    · rw [if_neg hb, cell_insert_of_ne _ a b v hb, cell_erase_of_ne m a b hb]

theorem erase_wf (m : Memory) (a : Nat) (h : Memory.wf m) : Memory.wf (Memory.erase m a) :=
  ⟨h.1.filter _, fun p hp => h.2 p (List.mem_filter.mp hp).1⟩

theorem mem_insert (m : Memory) (a : Nat) (v : Word16) (p : Nat × Word16)
    (hp : p ∈ Memory.insert a v m) : p = (a, v) ∨ p ∈ m := by
  induction m with
  | nil => simpa [Memory.insert] using hp
  | cons q rest ih =>
    by_cases h : a < q.1
    · simpa [Memory.insert, h] using hp
    · rcases (by simpa [Memory.insert, h] using hp : p = q ∨ p ∈ Memory.insert a v rest) with rfl | hp
      · simp
      · rcases ih hp with rfl | hp
        · simp
        · simp [hp]

theorem insert_wf (m : Memory) (a : Nat) (v : Word16) (ha : a < memoryCells) (hv : v ≠ 0)
    (hne : ∀ p ∈ m, p.1 ≠ a) (h : Memory.wf m) : Memory.wf (Memory.insert a v m) := by
  refine ⟨?_, fun p hp => ?_⟩
  · have hs := h.1
    clear h
    induction m with
    | nil => simp [Memory.insert]
    | cons p rest ih =>
      have hp : p.1 ≠ a := hne p (by simp)
      rw [List.pairwise_cons] at hs
      by_cases hlt : a < p.1
      · simp only [Memory.insert, hlt, if_true, List.pairwise_cons, List.mem_cons]
        refine ⟨?_, hs.1, hs.2⟩
        rintro q (rfl | hq)
        · exact hlt
        · exact Nat.lt_trans hlt (hs.1 q hq)
      · simp only [Memory.insert, hlt, if_false, List.pairwise_cons]
        refine ⟨fun q hq => ?_, ih (fun q hq => hne q (by simp [hq])) hs.2⟩
        rcases mem_insert rest a v q hq with rfl | hq
        · exact Nat.lt_of_le_of_ne (Nat.not_lt.mp hlt) hp
        · exact hs.1 q hq
  · rcases mem_insert m a v p hp with rfl | hp
    · exact ⟨ha, hv⟩
    · exact h.2 p hp

/-- A write keeps the canonical form. -/
theorem put_wf (m : Memory) (a : Nat) (v : Word16) (ha : a < memoryCells) (h : Memory.wf m) :
    Memory.wf (Memory.put m a v) := by
  unfold Memory.put
  split
  · exact erase_wf m a h
  · next hv => exact insert_wf _ a v ha hv (not_mem_erase m a) (erase_wf m a h)

theorem memWrite_wf (a v : Word16) (s : State) (h : Memory.wf s.mem) : Memory.wf (memWrite a v s).mem :=
  put_wf s.mem a.toNat v (by simpa [memoryCells] using a.isLt) h

/-- The memory unit's read in its two phases, and that neither touches a cell. -/
theorem muRead_eq (a : Word16) (s : State) :
    (s.armed = false ∧ muRead a s = (none, { s with armed := true }))
      ∨ (s.armed = true ∧ muRead a s = (some (Memory.cell s.mem a.toNat), { s with armed := false })) := by
  cases h : s.armed <;> simp [muRead, memRead, h]

/-- The memory unit's write in its two phases. -/
theorem muWrite_eq (a v : Word16) (s : State) :
    (s.armed = false ∧ muWrite a v s = (false, { s with armed := true }))
      ∨ (s.armed = true
          ∧ muWrite a v s = (true, { s with mem := Memory.put s.mem a.toNat v, armed := false })) := by
  cases h : s.armed <;> simp [muWrite, memWrite, h]

theorem muRead_wf (a : Word16) (s : State) (h : Memory.wf s.mem) : Memory.wf (muRead a s).2.mem := by
  rcases muRead_eq a s with ⟨_, e⟩ | ⟨_, e⟩ <;> rw [e] <;> exact h

theorem muWrite_wf (a v : Word16) (s : State) (h : Memory.wf s.mem) : Memory.wf (muWrite a v s).2.mem := by
  rcases muWrite_eq a v s with ⟨_, e⟩ | ⟨_, e⟩ <;> rw [e]
  · exact h
  · exact memWrite_wf a v s h

theorem reset_mem_wf : Memory.wf State.reset.mem := by
  decide

end Sys2Proof.Machine
end

