-- ==== Sys2Proof/Laws/PerInstr.lean ====
section
/-! SUPPORT. The family RowRoundTrip: the word of one micro-operation, read back in its own group, gives it, with
every operand at every value, and the word matches that row of the opcode table (spec/30_encoding.md R84, R101). -/

namespace Sys2Proof.Laws.RowRoundTrip

open Sys2Proof

/-- The row is what its own word decodes to in its group, and its word matches it. -/
def Statement (i : Instr) : Prop := decodeRow i.group (encode i) = some i ∧ i.matchesWord (encode i) = true

theorem halt : Statement .halt := by unfold Statement; decide

theorem aluPass (b : Reg) : Statement (.aluPass b) := by unfold Statement; cases b <;> decide

theorem aluAdd (b : Reg) : Statement (.aluAdd b) := by unfold Statement; cases b <;> decide

theorem aluAnd (b : Reg) : Statement (.aluAnd b) := by unfold Statement; cases b <;> decide

theorem aluNot (b : Reg) : Statement (.aluNot b) := by unfold Statement; cases b <;> decide

theorem shNone : Statement .shNone := by unfold Statement; decide

theorem shLsh : Statement .shLsh := by unfold Statement; decide

theorem shRsh : Statement .shRsh := by unfold Statement; decide

theorem shSpare3 : Statement .shSpare3 := by unfold Statement; decide

theorem condNone (addr : Word8) : Statement (.condNone addr) := by
  unfold Statement; revert addr; decide +kernel

theorem condJn (addr : Word8) : Statement (.condJn addr) := by
  unfold Statement; revert addr; decide +kernel

theorem condJz (addr : Word8) : Statement (.condJz addr) := by
  unfold Statement; revert addr; decide +kernel

theorem condGoto (addr : Word8) : Statement (.condGoto addr) := by
  unfold Statement; revert addr; decide +kernel

theorem amuxAbus (a : Reg) : Statement (.amuxAbus a) := by unfold Statement; cases a <;> decide

theorem amuxMar (a : Reg) : Statement (.amuxMar a) := by unfold Statement; cases a <;> decide

theorem marldOff : Statement .marldOff := by unfold Statement; decide

theorem marldOn (b : Reg) : Statement (.marldOn b) := by unfold Statement; cases b <;> decide

theorem wbOff (d : Reg) : Statement (.wbOff d) := by unfold Statement; cases d <;> decide

theorem wbOn (d : Reg) : Statement (.wbOn d) := by unfold Statement; cases d <;> decide

theorem memNone (rdwr : Bool) : Statement (.memNone rdwr) := by unfold Statement; cases rdwr <;> decide

theorem memWr : Statement .memWr := by unfold Statement; decide

theorem memRd : Statement .memRd := by unfold Statement; decide

theorem mbrf0 : Statement .mbrf0 := by unfold Statement; decide

theorem mbrf1 : Statement .mbrf1 := by unfold Statement; decide

end Sys2Proof.Laws.RowRoundTrip
end

