-- ==== Sys2Proof/Laws/Program.lean ====
section
/-! SUPPORT. The program that the supply of a word makes. -/

namespace Sys2Proof.Machine

variable (prog : List Word32) (i : Nat) (w : Word32)

/-- A program grows just far enough to hold the placed word. -/
theorem placeWord_length : (placeWord prog i w).length = max prog.length (i + 1) := by
  unfold placeWord
  simp only [List.length_set, List.length_append, List.length_replicate]
  omega

/-- What every index of the program reads as: the placed word, the old program, zero words between them. -/
theorem placeWord_getElem? (j : Nat) :
    (placeWord prog i w)[j]? =
      if j = i then some w else if j < prog.length then prog[j]? else if j < i then some 0 else none := by
  unfold placeWord
  by_cases hj : j = i
  · subst hj
    rw [if_pos rfl, List.getElem?_set_self]
    simp only [List.length_append, List.length_replicate]
    omega
  · rw [if_neg hj, List.getElem?_set_ne (Ne.symm hj)]
    split
    · next hl => rw [List.getElem?_append_left hl]
    · next hl =>
      rw [List.getElem?_append_right (by omega), List.getElem?_replicate]
      congr 1
      simp only [eq_iff_iff]
      omega

end Sys2Proof.Machine
end

