-- ==== Sys2Proof/Laws/Step.lean ====
section
/-! SUPPORT. What each row and each shared operation of the step can answer, said once; proofs about a step cite
these and unfold nothing below them. -/

namespace Sys2Proof.Machine

/-! ## Sequencing -/

@[simp] theorem andThen_next (s : State) (k : State → Result) : andThen (.next s) k = k s := rfl

@[simp] theorem andThen_fault (f : Fault) (k : State → Result) : andThen (.fault f) k = .fault f := rfl

@[simp] theorem andThen_refused (r : Refusal) (k : State → Result) : andThen (.refused r) k = .refused r := rfl

@[simp] theorem andThen_raiseReadOnly (r : Reg) (s : State) (k : State → Result) :
    andThen (raiseReadOnly r s) k = raiseReadOnly r s := rfl

/-- A sequence answers a next state only through one of its first part. -/
theorem andThen_eq_next {o : Result} {k : State → Result} {t : State} (h : andThen o k = .next t) :
    ∃ s, o = .next s ∧ k s = .next t := by
  cases o with
  | next s => exact ⟨s, rfl, h⟩
  | fault f => cases h
  | refused r => cases h

/-! ## The rows -/

@[simp] theorem exec_halt (s : State) : exec .halt s = .next s.beginStep := rfl

@[simp] theorem exec_mbrfRow (f : Fields) (s : State) : exec f.mbrfRow s = .next s := by
  unfold Fields.mbrfRow
  split <;> rfl

@[simp] theorem exec_amuxRow (f : Fields) (s : State) :
    exec f.amuxRow s = .next (selectA (if f.amux then .mar else f.a) s) := by
  unfold Fields.amuxRow
  split <;> rfl

@[simp] theorem exec_marldRow (f : Fields) (s : State) :
    exec f.marldRow s = .next (if f.marld then s.setReg .mar (s.reg f.b) else s) := by
  unfold Fields.marldRow
  split <;> rfl

/-- The value an ALU row computes from its operands. -/
def aluValue (mode : AluMode) (a b : Word16) : Word16 :=
  match mode with
  | .noOp => a
  | .add => a + b
  | .bitAnd => a &&& b
  | .bitNot => ~~~a

@[simp] theorem exec_aluRow (f : Fields) (s : State) :
    exec f.aluRow s = .next (aluFinish (aluValue f.alu (operandA s) (operandB f.b s)) s) := by
  unfold Fields.aluRow
  cases f.alu <;> rfl

/-- The value a shifter row computes. -/
def shValue (mode : ShMode) (x : Word16) : Word16 :=
  match mode with
  | .noOp => x
  | .left => x <<< 1
  | .right => x.sshiftRight 1
  | .spare => x

@[simp] theorem exec_shRow (f : Fields) (s : State) :
    exec f.shRow s = .next (setShifted (shValue f.sh s.datapath.result) s) := by
  unfold Fields.shRow
  cases f.sh <;> rfl

/-- Whether a condition row writes the program counter. -/
def condHolds (mode : CondMode) (s : State) : Bool :=
  match mode with
  | .noOp => false
  | .ifNegative => s.negative
  | .ifZero => s.zero
  | .goTo => true

@[simp] theorem exec_condRow (f : Fields) (s : State) :
    exec f.condRow s = .next (if condHolds f.cond s then s.setPc f.addr else s) := by
  unfold Fields.condRow
  cases f.cond <;> rfl

/-- The write-back row writes, does nothing, or raises. -/
theorem exec_wbRow (f : Fields) (s : State) :
    exec f.wbRow s =
      if f.ens || s.cfg.wbPolicy == .unconditional then writeReg f.s s.datapath.shifted s else .next s := by
  unfold Fields.wbRow
  cases f.ens <;> cases h : s.cfg.wbPolicy <;> simp [exec, execWbOn, execWbOff, writeBack, h]

/-- The state after a memory row, which never stops. -/
def memStage (f : Fields) (s : State) : State :=
  if f.ms then
    if f.rdwr then
      if s.armed then { s.setReg .mbr (memRead (s.reg .mar) s) with armed := false }
      else { s with armed := true }
    else if s.armed then { memWrite (s.reg .mar) (s.reg .mbr) s with armed := false }
    else { s with armed := true }
  else s

@[simp] theorem exec_memRow (f : Fields) (s : State) : exec f.memRow s = .next (memStage f s) := by
  unfold Fields.memRow memStage
  cases f.ms <;> cases f.rdwr <;> cases h : s.armed <;>
    simp [exec, execMemNone, execMemRd, execMemWr, muRead, muWrite, memAddress, memDatum, writeReg, State.setReg, h]

theorem readOnlyCheck_eq (ens : Bool) (d : Reg) (s : State) :
    readOnlyCheck ens d s = if ens && readOnly d then raiseReadOnly d s else .next s := rfl

/-! ## The step -/

/-- A step has one of three starts: an aborted machine, a program that has ended, a fetched word. -/
theorem step_eq (s : State) :
    (∃ c, s.status = .aborted c ∧ step s = .refused (.machineAborted c))
      ∨ (s.status = .running ∧ s.fetch = none ∧ step s = .refused .programDone)
      ∨ (∃ w, s.status = .running ∧ s.fetch = some w ∧ step s = executeWord w s.beginStep) := by
  unfold step controllerStep
  cases hs : s.status with
  | aborted c => exact .inl ⟨c, rfl, rfl⟩
  | running =>
    cases hf : s.fetch with
    | none => exact .inr (.inl ⟨rfl, rfl, rfl⟩)
    | some w => exact .inr (.inr ⟨w, rfl, rfl, rfl⟩)

theorem fetch_eq_none_iff (s : State) : s.fetch = none ↔ s.done = true := by
  simp [State.fetch, State.done]

/-- The step of a word from the fetch on. -/
theorem step_of_fetch {s : State} {w : Word32} (hr : s.status = .running) (hf : s.fetch = some w) :
    step s = executeWord w s.beginStep := by
  simp [step, controllerStep, hr, hf]

/-- The state after the MAR load of step 6. -/
def loadMar (f : Fields) (s : State) : State := if f.marld then s.setReg .mar (s.reg f.b) else s

theorem loadMar_reg (f : Fields) (s : State) (q : Reg) :
    (loadMar f s).reg q = if f.marld = true ∧ q = .mar then s.reg f.b else s.reg q := by
  unfold loadMar
  cases f.marld <;> simp [reg_setReg]

theorem loadMar_eq (f : Fields) (s : State) : loadMar f s = { s with regs := (loadMar f s).regs } := by
  unfold loadMar
  cases f.marld <;> rfl

/-- The ALU result of step 7: both operands are read after the MAR load. -/
def resultOf (f : Fields) (s : State) : Word16 :=
  aluValue f.alu ((loadMar f s).reg (if f.amux then .mar else f.a)) ((loadMar f s).reg f.b)

/-- Whether step 10 takes the branch. -/
def takes (f : Fields) (s : State) : Bool :=
  match f.cond with
  | .noOp => false
  | .ifNegative => negativeOf (resultOf f s)
  | .ifZero => zeroOf (resultOf f s)
  | .goTo => true

/-- The state after steps 4 to 10 of a word that passes the check of step 5. -/
def afterTen (f : Fields) (s : State) : State :=
  { s with
    regs := (loadMar f s).regs
    pc := if takes f s then f.addr else s.pc
    negative := negativeOf (resultOf f s)
    zero := zeroOf (resultOf f s)
    datapath := { operandA := if f.amux then .mar else f.a, result := resultOf f s
                  shifted := shValue f.sh (resultOf f s) } }

theorem afterTen_reg (f : Fields) (s : State) (q : Reg) :
    (afterTen f s).reg q = if f.marld = true ∧ q = .mar then s.reg f.b else s.reg q := by
  rw [← loadMar_reg]
  cases q <;> rfl

/-- Steps 8 to 10 with the ALU result `r`. -/
theorem stageTen_eq (f : Fields) (s : State) (t : State) (ht : t = selectA (if f.amux then .mar else f.a) (loadMar f s)) :
    (if condHolds f.cond (setShifted (shValue f.sh (resultOf f s)) (aluFinish (resultOf f s) t)) then
        (setShifted (shValue f.sh (resultOf f s)) (aluFinish (resultOf f s) t)).setPc f.addr
      else setShifted (shValue f.sh (resultOf f s)) (aluFinish (resultOf f s) t)) = afterTen f s := by
  have hc : condHolds f.cond (setShifted (shValue f.sh (resultOf f s)) (aluFinish (resultOf f s) t)) = takes f s := by
    unfold takes
    cases f.cond <;> rfl
  rw [hc, ht, loadMar_eq]
  unfold afterTen
  cases takes f s <;> rfl

/-- Steps 11 to 13 from any state: a write and the end, a fatal write, or just the end. -/
theorem executeFields_tail (f : Fields) (s : State) :
    (andThen (exec f.wbRow s) fun s => andThen (exec f.memRow s) fun s => .next s.endStep) =
      if f.ens || s.cfg.wbPolicy == .unconditional then
        if readOnly f.s then raiseReadOnly f.s s
        else .next (memStage f (s.setReg f.s s.datapath.shifted)).endStep
      else .next (memStage f s).endStep := by
  rw [exec_wbRow]
  split
  · unfold writeReg
    split <;> simp
  · simp

/-- A nonzero word raises at step 5, raises at step 11, or runs to its end. -/
theorem executeFields_eq (f : Fields) (s : State) :
    executeFields f s =
      if f.ens && readOnly f.s then raiseReadOnly f.s (selectA (if f.amux then .mar else f.a) s)
      else if f.ens || (afterTen f s).cfg.wbPolicy == .unconditional then
        if readOnly f.s then raiseReadOnly f.s (afterTen f s)
        else .next (memStage f ((afterTen f s).setReg f.s (afterTen f s).datapath.shifted)).endStep
      else .next (memStage f (afterTen f s)).endStep := by
  unfold executeFields
  simp only [exec_mbrfRow, exec_amuxRow, andThen_next, readOnlyCheck_eq]
  split
  · rfl
  · have hm : (if f.marld then (selectA (if f.amux then .mar else f.a) s).setReg .mar
          ((selectA (if f.amux then .mar else f.a) s).reg f.b) else selectA (if f.amux then .mar else f.a) s)
        = selectA (if f.amux then .mar else f.a) (loadMar f s) := by
      unfold loadMar
      rw [selectA_reg]
      cases f.marld <;> rfl
    have hv : aluValue f.alu (operandA (selectA (if f.amux then .mar else f.a) (loadMar f s)))
        (operandB f.b (selectA (if f.amux then .mar else f.a) (loadMar f s))) = resultOf f s := by
      simp only [operandA, operandB, selectA_reg, selectA_datapath]
      rfl
    simp only [andThen_next, exec_marldRow, exec_aluRow, exec_shRow, exec_condRow, hm, hv, aluFinish_datapath]
    rw [stageTen_eq f s _ rfl]
    exact executeFields_tail f (afterTen f s)

/-! ## The memory stage and the write-back, field by field -/

theorem memStage_reg (f : Fields) (s : State) (q : Reg) :
    (memStage f s).reg q =
      if f.ms = true ∧ f.rdwr = true ∧ s.armed = true ∧ q = .mbr then memRead (s.reg .mar) s else s.reg q := by
  unfold memStage
  cases f.ms <;> cases f.rdwr <;> cases s.armed <;> cases q <;> rfl

theorem memStage_cell (f : Fields) (s : State) (a : Nat) :
    Memory.cell (memStage f s).mem a =
      if f.ms = true ∧ f.rdwr = false ∧ s.armed = true ∧ a = (s.reg .mar).toNat then s.reg .mbr
      else Memory.cell s.mem a := by
  unfold memStage
  cases f.ms <;> cases f.rdwr <;> cases s.armed <;> simp [cell_put]

theorem memStage_wf (f : Fields) (s : State) (h : Memory.wf s.mem) : Memory.wf (memStage f s).mem := by
  unfold memStage
  cases f.ms <;> cases f.rdwr <;> cases s.armed
  case true.false.true => exact memWrite_wf _ _ s h
  all_goals exact h

theorem memStage_armed (f : Fields) (s : State) : (memStage f s).armed = (s.armed ^^ f.ms) := by
  unfold memStage
  cases f.ms <;> cases f.rdwr <;> cases h : s.armed <;> simp [h]

@[simp] theorem memStage_pc (f : Fields) (s : State) : (memStage f s).pc = s.pc := by
  unfold memStage
  cases f.ms <;> cases f.rdwr <;> cases s.armed <;> rfl

@[simp] theorem memStage_negative (f : Fields) (s : State) : (memStage f s).negative = s.negative := by
  unfold memStage
  cases f.ms <;> cases f.rdwr <;> cases s.armed <;> rfl

@[simp] theorem memStage_zero (f : Fields) (s : State) : (memStage f s).zero = s.zero := by
  unfold memStage
  cases f.ms <;> cases f.rdwr <;> cases s.armed <;> rfl

@[simp] theorem memStage_status (f : Fields) (s : State) : (memStage f s).status = s.status := by
  unfold memStage
  cases f.ms <;> cases f.rdwr <;> cases s.armed <;> rfl

@[simp] theorem memStage_cfg (f : Fields) (s : State) : (memStage f s).cfg = s.cfg := by
  unfold memStage
  cases f.ms <;> cases f.rdwr <;> cases s.armed <;> rfl

/-- The state after step 11 of a word that does not abort there. -/
def afterWriteBack (f : Fields) (s : State) : State :=
  if f.ens || s.cfg.wbPolicy == .unconditional then
    (afterTen f s).setReg f.s (shValue f.sh (resultOf f s))
  else afterTen f s

/-- Every field of the state after step 11 but the registers. -/
theorem afterWriteBack_eq (f : Fields) (s : State) :
    afterWriteBack f s = { afterTen f s with regs := (afterWriteBack f s).regs } := by
  unfold afterWriteBack
  split <;> rfl

@[simp] theorem afterWriteBack_pc (f : Fields) (s : State) :
    (afterWriteBack f s).pc = if takes f s then f.addr else s.pc := by
  rw [afterWriteBack_eq]
  rfl

@[simp] theorem afterWriteBack_negative (f : Fields) (s : State) :
    (afterWriteBack f s).negative = negativeOf (resultOf f s) := by
  rw [afterWriteBack_eq]
  rfl

@[simp] theorem afterWriteBack_zero (f : Fields) (s : State) :
    (afterWriteBack f s).zero = zeroOf (resultOf f s) := by
  rw [afterWriteBack_eq]
  rfl

@[simp] theorem afterWriteBack_mem (f : Fields) (s : State) : (afterWriteBack f s).mem = s.mem := by
  rw [afterWriteBack_eq]
  rfl

@[simp] theorem afterWriteBack_armed (f : Fields) (s : State) : (afterWriteBack f s).armed = s.armed := by
  rw [afterWriteBack_eq]
  rfl

@[simp] theorem afterWriteBack_status (f : Fields) (s : State) : (afterWriteBack f s).status = s.status := by
  rw [afterWriteBack_eq]
  rfl

@[simp] theorem afterWriteBack_cfg (f : Fields) (s : State) : (afterWriteBack f s).cfg = s.cfg := by
  rw [afterWriteBack_eq]
  rfl

theorem afterWriteBack_reg (f : Fields) (s : State) (q : Reg) :
    (afterWriteBack f s).reg q =
      if (f.ens || s.cfg.wbPolicy == .unconditional) = true ∧ q = f.s ∧ readOnly f.s = false then
        shValue f.sh (resultOf f s)
      else if f.marld = true ∧ q = .mar then s.reg f.b else s.reg q := by
  unfold afterWriteBack
  split
  · next h => simp [h, reg_setReg, afterTen_reg]
  · next h => simp [h, afterTen_reg]

/-- A word whose write-back names no constant register runs to its end. -/
theorem executeFields_next (f : Fields) (s : State)
    (h : (f.ens || s.cfg.wbPolicy == .unconditional) = true → readOnly f.s = false) :
    executeFields f s = .next (memStage f (afterWriteBack f s)).endStep := by
  rw [executeFields_eq]
  have hc : (afterTen f s).cfg = s.cfg := rfl
  rw [hc]
  unfold afterWriteBack
  by_cases h5 : (f.ens && readOnly f.s) = true
  · simp only [Bool.and_eq_true] at h5
    simp [h5.1, h5.2] at h
  · rw [if_neg h5]
    split
    · next hw =>
      rw [if_neg (by simp [h hw])]
      rfl
    · rfl

/-- A word with ENS = 1 and a constant destination raises at step 5. -/
theorem executeFields_abort_five (f : Fields) (s : State) (he : f.ens = true) (hr : readOnly f.s = true) :
    executeFields f s = raiseReadOnly f.s s := by
  rw [executeFields_eq, he, hr]
  rfl

/-- A word with ENS = 0 and a constant destination raises at step 11 under the policy `unconditional`. -/
theorem executeFields_abort_eleven (f : Fields) (s : State) (he : f.ens = false) (hr : readOnly f.s = true)
    (hp : s.cfg.wbPolicy = .unconditional) : executeFields f s = raiseReadOnly f.s (afterTen f s) := by
  rw [executeFields_eq]
  have hc : (afterTen f s).cfg = s.cfg := rfl
  simp [hc, he, hr, hp]

/-- The three ends of a nonzero word. -/
theorem executeFields_cases (f : Fields) (s : State) :
    (f.ens = true ∧ readOnly f.s = true ∧ executeFields f s = raiseReadOnly f.s s)
      ∨ (f.ens = false ∧ readOnly f.s = true ∧ s.cfg.wbPolicy = .unconditional
          ∧ executeFields f s = raiseReadOnly f.s (afterTen f s))
      ∨ (((f.ens || s.cfg.wbPolicy == .unconditional) = true → readOnly f.s = false)
          ∧ executeFields f s = .next (memStage f (afterWriteBack f s)).endStep) := by
  cases hr : readOnly f.s with
  | false => exact .inr (.inr ⟨fun _ => rfl, executeFields_next f s fun _ => hr⟩)
  | true =>
    cases he : f.ens with
    | true => exact .inl ⟨rfl, rfl, executeFields_abort_five f s he hr⟩
    | false =>
      cases hp : s.cfg.wbPolicy with
      | gated =>
        refine .inr (.inr ⟨by simp, executeFields_next f s ?_⟩)
        simp [he, hp]
      | unconditional => exact .inr (.inl ⟨rfl, rfl, rfl, executeFields_abort_eleven f s he hr hp⟩)

/-! ## What the flag reset of step 1 does not reach -/

@[simp] theorem loadMar_beginStep_reg (f : Fields) (s : State) (q : Reg) :
    (loadMar f s.beginStep).reg q = (loadMar f s).reg q := by
  rw [loadMar_reg, loadMar_reg]
  simp

@[simp] theorem resultOf_beginStep (f : Fields) (s : State) : resultOf f s.beginStep = resultOf f s := by
  simp [resultOf]

@[simp] theorem takes_beginStep (f : Fields) (s : State) : takes f s.beginStep = takes f s := by
  simp [takes]

end Sys2Proof.Machine
end

