-- ==== Sys2Proof/Laws/Units.lean ====
section
/-! SUPPORT. The units as claims write them (Safety, in the spec's arithmetic) are the units as the rows compute
them, and the functions of a whole word are those of Laws/Step (spec/00_scope.md R8; spec/41_alu.md;
spec/42_shifter.md). -/

namespace Sys2Proof.Machine

theorem aluOp_eq (m : AluMode) (a b : Word16) : aluOp m a b = aluValue m a b := by
  cases m with
  | noOp => rfl
  | add =>
    apply BitVec.eq_of_toNat_eq
    simp [aluOp, aluValue]
  | bitAnd => rfl
  | bitNot =>
    simp only [aluOp, aluValue]
    apply BitVec.eq_of_getLsbD_eq
    intro i hi
    interval_cases i <;> simp

theorem shOp_eq (m : ShMode) (x : Word16) : shOp m x = shValue m x := by
  cases m with
  | noOp => rfl
  | left =>
    apply BitVec.eq_of_toNat_eq
    simp [shOp, shValue, BitVec.toNat_shiftLeft, Nat.shiftLeft_eq]
    omega
  | right =>
    apply BitVec.eq_of_toInt_eq
    have h1 := BitVec.toInt_lt (x := x)
    have h2 := BitVec.le_toInt (x := x)
    simp only [shOp, shValue, BitVec.toInt_sshiftRight, BitVec.toInt_ofInt, Int.shiftRight_eq_div_pow, Int.bmod_def]
    norm_num at *
    omega
  | spare => rfl

/-- The sign bit is the sign of the two's complement reading (R8). -/
theorem negativeOf_eq (r : Word16) : negativeOf r = decide (r.toInt < 0) := by
  have hm : r.getLsbD 15 = r.msb := by simp [BitVec.msb_eq_getLsbD_last]
  have hl := r.isLt
  rw [negativeOf, BitVec.toInt_eq_msb_cond, hm]
  cases h : r.msb
  · simp
  · simp
    omega

theorem zeroOf_eq (r : Word16) : zeroOf r = decide (r.toNat = 0) := by
  rw [Bool.eq_iff_iff]
  simp [zeroOf, ← BitVec.toNat_inj]

theorem not_negative_and_zero (r : Word16) : ¬(negativeOf r = true ∧ zeroOf r = true) := by
  rintro ⟨hn, hz⟩
  rw [negativeOf_eq, decide_eq_true_eq] at hn
  have h0 : r = 0 := by simpa [zeroOf] using hz
  rw [h0] at hn
  exact absurd hn (by decide)

theorem regAfterLoad_eq (f : Fields) (s : State) (q : Reg) : regAfterLoad f s q = (loadMar f s).reg q := by
  rw [loadMar_reg]
  simp [regAfterLoad]

theorem wordResult_eq (f : Fields) (s : State) : wordResult f s = resultOf f s := by
  rw [wordResult, resultOf, aluOp_eq, regAfterLoad_eq, regAfterLoad_eq]

theorem wordShifted_eq (f : Fields) (s : State) : wordShifted f s = shValue f.sh (resultOf f s) := by
  rw [wordShifted, shOp_eq, wordResult_eq]

theorem branches_eq (f : Fields) (s : State) : branches f s = takes f s := by
  rw [branches, wordResult_eq, ← negativeOf_eq, ← zeroOf_eq, takes]
  cases f.cond <;> rfl

theorem regAfterWriteBack_eq (f : Fields) (s : State) (q : Reg) (h : writesBack f s = true → readOnly f.s = false) :
    regAfterWriteBack f s q = (afterWriteBack f s).reg q := by
  rw [afterWriteBack_reg, regAfterWriteBack, wordShifted_eq, regAfterLoad_eq, loadMar_reg]
  change _ = if writesBack f s = true ∧ _ then _ else _
  by_cases hw : writesBack f s = true
  · simp [hw, h hw]
  · simp [hw]

/-! ## The step inverted -/

theorem step_of_executes {s : State} {w : Word32} (h : Executes s w) :
    step s = executeFields (decodeFields w) s.beginStep := by
  rw [step_of_fetch h.1 h.2.1, executeWord, if_neg h.2.2]

/-- A step that answers a next state halted, or ran a word whose write-back is lawful to its end. -/
theorem step_eq_next {s t : State} (h : step s = .next t) :
    (s.status = .running ∧ s.fetch = some 0 ∧ t = s.beginStep)
      ∨ ∃ w, Executes s w
          ∧ (((decodeFields w).ens || s.cfg.wbPolicy == .unconditional) = true → readOnly (decodeFields w).s = false)
          ∧ t = (memStage (decodeFields w) (afterWriteBack (decodeFields w) s.beginStep)).endStep := by
  rcases step_eq s with ⟨c, _, e⟩ | ⟨_, _, e⟩ | ⟨w, hs, hf, e⟩
  · rw [h] at e
    cases e
  · rw [h] at e
    cases e
  · rw [h, executeWord] at e
    split at e
    · next hw =>
      subst hw
      exact .inl ⟨hs, hf, by cases e; rfl⟩
    · next hw =>
      refine .inr ⟨w, ⟨hs, hf, hw⟩, ?_⟩
      rcases executeFields_cases (decodeFields w) s.beginStep with ⟨_, _, e'⟩ | ⟨_, _, _, e'⟩ | ⟨hk, e'⟩
      · rw [e'] at e
        cases e
      · rw [e'] at e
        cases e
      · rw [e'] at e
        exact ⟨hk, by cases e; rfl⟩

/-! ## Runs -/

theorem runSteps_succ (n : Nat) (s : State) : runSteps (n + 1) s = andThen (step s) (runSteps n) := rfl

theorem memoryWords_succ_of_next (n : Nat) {s t : State} (h : step s = .next t) :
    memoryWords (n + 1) s = (if invokesMemory s then 1 else 0) + memoryWords n t := by
  rw [memoryWords, h]

end Sys2Proof.Machine
end

