-- ==== Sys2Proof/Tests/Slice0.lean ====
section
/-! SUPPORT. Tests with expected results from spec/95_test_vectors.md and the worked examples of the rules, and one
witness for the hypotheses of each statement that has some. -/

namespace Sys2Proof.Tests

open Sys2Proof Sys2Proof.Machine

/-! ## Helpers -/

/-- The machine at reset with one word of program. -/
def load (w : Nat) : State := State.reset.withFetchWord 32 w

/-- The machine `load w` with the policy `unconditional`. -/
def loadU (w : Nat) : State := { load w with cfg := { (load w).cfg with wbPolicy := .unconditional } }

/-- The step answers a next state that passes `p`. -/
def nextWith (o : Result) (p : State → Bool) : Bool :=
  match o with
  | .next t => p t
  | .fault _ => false
  | .refused _ => false

/-- The step aborts on register `r` and leaves a machine that passes `p`. -/
def abortWith (o : Result) (r : Reg) (p : State → Bool) : Bool :=
  match o with
  | .next _ => false
  | .fault (.readOnlyRegisterWrite d left) => d == r && p left
  | .fault (.invalidRegisterIndex _) => false
  | .fault .constructionError => false
  | .refused _ => false

/-- `pc`, `N` and `Z`. -/
def pcNZ (s : State) (pc : Nat) (n z : Bool) : Bool := s.pc.toNat == pc && s.negative == n && s.zero == z

/-! ## Decoding: words of V1 and V2, and one word for each row, written from the encodings of R84 and R101 -/

theorem test_accessor_V1 :
    bitGet 0x0A151100 20 = true ∧ bitGet 0x0A151100 21 = false ∧ bitGetMany 0x0A151100 16 20 = 5
      ∧ bitGetMany 0x0A151100 27 29 = 1 ∧ bitGetMany 0xFFFFFFFF 29 31 = 3 ∧ bitGetMany 0xFFFFFFFF 0 8 = 255
      ∧ bitGet 0x80000000 31 = true ∧ bitGetMany 0x00000100 8 12 = 1 ∧ bitGetMany 0x00000100 0 8 = 0 := by
  decide

theorem test_decode_V2_all_ones :
    decodeFields 0xFFFFFFFF =
      { addr := 255, a := .mbr, b := .mbr, s := .mbr, ens := true, ms := true, rdwr := true, marld := true,
        mbrf := true, sh := .spare, alu := .bitNot, cond := .goTo, amux := true } := by
  decide

theorem test_decode_V2_60A26409 :
    decodeFields 0x60A26409 =
      { addr := 9, a := .r4, b := .r6, s := .mone, ens := false, ms := true, rdwr := false, marld := true,
        mbrf := false, sh := .noOp, alu := .noOp, cond := .goTo, amux := false } := by
  decide

theorem test_decode_E7_second_word :
    decodeRows 0x01200500 =
      [.mbrf1, .amuxAbus .r5, .marldOff, .aluPass .zero, .shNone, .condNone 0, .wbOff .zero, .memWr] := by
  decide

theorem test_decode_rows_written_bit_by_bit :
    decodeRow .alu 0b00001000000000000101000000000000 = some (.aluAdd .r5)
      ∧ decodeRow .alu 0b00010000000000001111000000000000 = some (.aluAnd .mbr)
      ∧ decodeRow .alu 0b00011000000000000001000000000000 = some (.aluNot .one)
      ∧ decodeRow .alu 0b00000000000000000010000000000000 = some (.aluPass .mone)
      ∧ decodeRow .sh 0b00000010000000000000000000000000 = some .shLsh
      ∧ decodeRow .sh 0b00000100000000000000000000000000 = some .shRsh
      ∧ decodeRow .sh 0b00000110000000000000000000000000 = some .shSpare3
      ∧ decodeRow .sh 0b00000001000000000000000000000000 = some .shNone
      ∧ decodeRow .cond 0b00100000000000000000000010000001 = some (.condJn 0x81)
      ∧ decodeRow .cond 0b01000000000000000000000000100000 = some (.condJz 0x20)
      ∧ decodeRow .cond 0b01100000000000000000000011111111 = some (.condGoto 0xFF)
      ∧ decodeRow .cond 0b00000000000000000000000000000001 = some (.condNone 0x01) := by
  decide

theorem test_decode_more_rows_written_bit_by_bit :
    decodeRow .amux 0b00000000000000000000010000000000 = some (.amuxAbus .r4)
      ∧ decodeRow .amux 0b10000000000000000000010000000000 = some (.amuxMar .r4)
      ∧ decodeRow .marld 0b00000000100000000100000000000000 = some (.marldOn .r4)
      ∧ decodeRow .marld 0b00000001000000000100000000000000 = some .marldOff
      ∧ decodeRow .wb 0b00000000000101010000000000000000 = some (.wbOn .r5)
      ∧ decodeRow .wb 0b00000000000001010000000000000000 = some (.wbOff .r5)
      ∧ decodeRow .mem 0b00000000011000000000000000000000 = some .memRd
      ∧ decodeRow .mem 0b00000000001000000000000000000000 = some .memWr
      ∧ decodeRow .mem 0b00000000010000000000000000000000 = some (.memNone true)
      ∧ decodeRow .mbrf 0b00000001000000000000000000000000 = some .mbrf1
      ∧ decodeRow .mbrf 0b00000010000000000000000000000000 = some .mbrf0
      ∧ decodeRow .halt 0 = some .halt ∧ decodeRow .halt 1 = none := by
  decide

theorem test_table_words :
    decodeTableWord 32 0x00000000 = some .halt ∧ decodeTableWord 32 0x08000000 = some (.aluAdd .zero)
      ∧ decodeTableWord 32 0x02000000 = some .shLsh ∧ decodeTableWord 32 0x20000000 = some (.condJn 0)
      ∧ decodeTableWord 32 0x80000000 = some (.amuxMar .zero) ∧ decodeTableWord 32 0x00800000 = some (.marldOn .zero)
      ∧ decodeTableWord 32 0x00100000 = some (.wbOn .zero) ∧ decodeTableWord 32 0x00200000 = some .memWr
      ∧ decodeTableWord 32 0x00600000 = some .memRd ∧ decodeTableWord 32 0x01000000 = some .mbrf1
      ∧ decodeTableWord 32 0x00000001 = some (.condNone 1) ∧ decodeTableWord 32 (2 ^ 32) = none := by
  decide

/-! ## WellFormed: an ill-formed term for each check -/

theorem test_wellformed_accepts :
    rowsWellFormed [.halt] = true
      ∧ rowsWellFormed
          [.mbrf1, .amuxAbus .r5, .marldOn .r4, .aluPass .r4, .shNone, .condNone 0, .wbOff .zero, .memWr] = true
      ∧ Fields.wf { Fields.blank with mbrf := true } = true := by
  decide

theorem test_wellformed_refuses_zero_word : rowsWellFormed blankRows = false ∧ Fields.wf Fields.blank = false := by
  decide

theorem test_wellformed_refuses_lengths :
    rowsWellFormed [] = false ∧ rowsWellFormed [.mbrf1] = false ∧ rowsWellFormed [.mbrf1, .amuxAbus .r5] = false := by
  decide

theorem test_wellformed_refuses_two_B_fields :
    rowsWellFormed
      [.mbrf0, .amuxAbus .r5, .marldOn .r4, .aluPass .r5, .shNone, .condNone 0, .wbOff .zero, .memWr] = false := by
  decide

theorem test_wellformed_refuses_wrong_groups :
    rowsWellFormed [.halt, .amuxAbus .r5, .marldOff, .aluPass .r4, .shNone, .condNone 0, .wbOff .r4, .memWr] = false
      ∧ rowsWellFormed [.mbrf0, .mbrf0, .marldOff, .aluPass .r4, .shNone, .condNone 0, .wbOff .r4, .memWr] = false
      ∧ rowsWellFormed [.mbrf0, .amuxAbus .r5, .memWr, .aluPass .r4, .shNone, .condNone 0, .wbOff .r4, .memWr] = false
      ∧ rowsWellFormed [.mbrf0, .amuxAbus .r5, .marldOff, .shNone, .shNone, .condNone 0, .wbOff .r4, .memWr] = false
      ∧ rowsWellFormed
          [.mbrf0, .amuxAbus .r5, .marldOff, .aluPass .r4, .aluPass .r4, .condNone 0, .wbOff .r4, .memWr] = false
      ∧ rowsWellFormed [.mbrf0, .amuxAbus .r5, .marldOff, .aluPass .r4, .shNone, .shNone, .wbOff .r4, .memWr] = false
      ∧ rowsWellFormed [.mbrf0, .amuxAbus .r5, .marldOff, .aluPass .r4, .shNone, .condNone 0, .memWr, .memWr] = false
      ∧ rowsWellFormed
          [.mbrf0, .amuxAbus .r5, .marldOff, .aluPass .r4, .shNone, .condNone 0, .wbOff .r4, .wbOff .r4] = false := by
  decide

/-! ## One step each (V3 to V8) -/

/-- V3 row 12. -/
theorem test_halt_clears_flags_only :
    nextWith (step { load 0 with negative := true, armed := true })
      (fun t => pcNZ t 0 false false && t.armed) = true := by
  decide

/-- V3 row 1. -/
theorem test_nop : nextWith (step (load 0x01000000)) (fun t => pcNZ t 1 false true && !t.armed) = true := by
  decide

/-- V3 row 2: any bit set is no halt. -/
theorem test_address_bit_is_no_halt : nextWith (step (load 0x00000001)) (fun t => pcNZ t 1 false true) = true := by
  decide

/-- V3 row 6. -/
theorem test_amux_mar :
    nextWith (step (((load 0x80150400).setReg .mar 0x0010).setReg .r4 0x0007))
      (fun t => t.reg .r5 == 0x0010 && pcNZ t 1 false false) = true := by
  decide

/-- V3 row 7. -/
theorem test_marld :
    nextWith (step ((load 0x00804000).setReg .r4 0x1234)) (fun t => t.reg .mar == 0x1234 && pcNZ t 1 false true)
      = true := by
  decide

/-- V3 row 8: operand A is the newly loaded MAR. -/
theorem test_marld_seen_by_operand_a :
    nextWith (step (((load 0x88954000).setReg .mar 0x0100).setReg .r4 0x0003))
      (fun t => t.reg .mar == 0x0003 && t.reg .r5 == 0x0006) = true := by
  decide

/-- V3 row 9: the write-back overrides the MAR load. -/
theorem test_writeback_over_marld :
    nextWith (step (((load 0x00934600).setReg .r4 0x1111).setReg .r6 0x2222)) (fun t => t.reg .mar == 0x2222)
      = true := by
  decide

/-- V3 row 10: every bit set. -/
theorem test_all_ones :
    nextWith
      (step { ((load 0xFFFFFFFF).setReg .mar 0x0005).setReg .mbr 0x0009 with mem := [(9, 0x7777)], armed := true })
      (fun t => t.reg .mar == 0x0009 && t.reg .mbr == 0x7777 && pcNZ t 0 true false && !t.armed) = true := by
  decide

/-- V3 row 11. -/
theorem test_deadbeef :
    nextWith (step (((load 0xDEADBEEF).setReg .r11 0x00F0).setReg .r14 0x0011))
      (fun t => t.reg .mar == 0x00F0 && t.reg .r13 == 0x0000 && t.armed && pcNZ t 1 true false) = true := by
  decide

/-- V4: PASS. -/
theorem test_alu_pass :
    nextWith (step (((load 0x00165400).setReg .r4 0x8001).setReg .r5 0x1234))
      (fun t => t.reg .r6 == 0x8001 && pcNZ t 1 true false) = true := by
  decide

/-- V4: ADD wraps to zero. -/
theorem test_alu_add_wraps :
    nextWith (step (((load 0x08165400).setReg .r4 0xFFFF).setReg .r5 0x0001))
      (fun t => t.reg .r6 == 0x0000 && pcNZ t 1 false true) = true := by
  decide

/-- V4, last line: the source is also the destination. -/
theorem test_alu_add_same_register :
    nextWith (step ((load 0x08141400).setReg .r4 0x0009)) (fun t => t.reg .r4 == 0x000A && pcNZ t 1 false false)
      = true := by
  decide

/-- V4: AND. -/
theorem test_alu_and :
    nextWith (step (((load 0x10165400).setReg .r4 0xF0F0).setReg .r5 0xFF00))
      (fun t => t.reg .r6 == 0xF000 && pcNZ t 1 true false) = true := by
  decide

/-- V4: NOT ignores `b`. -/
theorem test_alu_not :
    nextWith (step (((load 0x18165400).setReg .r4 0x00FF).setReg .r5 0xAAAA))
      (fun t => t.reg .r6 == 0xFF00 && pcNZ t 1 true false) = true := by
  decide

/-- V5: no shift, and the spare encoding. -/
theorem test_shift_none_and_spare :
    nextWith (step ((load 0x00160400).setReg .r4 0x8001)) (fun t => t.reg .r6 == 0x8001 && pcNZ t 1 true false) = true
      ∧ nextWith (step ((load 0x06160400).setReg .r4 0x8001)) (fun t => t.reg .r6 == 0x8001 && pcNZ t 1 true false)
        = true := by
  decide

/-- V5, row 8000 LSH: zero is written back, the flags are those of the ALU result. -/
theorem test_shift_left :
    nextWith (step ((load 0x02160400).setReg .r4 0x8000)) (fun t => t.reg .r6 == 0x0000 && pcNZ t 1 true false)
      = true := by
  decide

/-- V5, row FFFC RSH (E5: -4 gives -2). -/
theorem test_shift_right :
    nextWith (step ((load 0x04160400).setReg .r4 0xFFFC)) (fun t => t.reg .r6 == 0xFFFE && pcNZ t 1 true false)
      = true := by
  decide

/-- V6: JN at `pc = 7`, taken and not taken; the program is seven filler words and the word. -/
theorem test_cond_jn :
    nextWith (step ({ ({ State.reset with pc := 7 } : State).withFetchWord 32 0x20000420 with armed := false }.setReg
        .r4 0x8000)) (fun t => t.pc == 33) = true
      ∧ nextWith (step ((({ State.reset with pc := 7 } : State).withFetchWord 32 0x20000420).setReg .r4 0x7FFF))
        (fun t => t.pc == 8) = true := by
  decide

/-- V6: JZ taken on a zero result; further case 1: not on a zero that only the shifter makes. -/
theorem test_cond_jz :
    nextWith (step ((({ State.reset with pc := 7 } : State).withFetchWord 32 0x40000420).setReg .r4 0x0000))
        (fun t => t.pc == 33) = true
      ∧ nextWith (step ((({ State.reset with pc := 7 } : State).withFetchWord 32 0x42150420).setReg .r4 0x8000))
        (fun t => t.reg .r5 == 0x0000 && pcNZ t 8 true false) = true := by
  decide

/-- V6, further case 4: GOTO 0xFF goes to index 0. -/
theorem test_cond_goto_wraps :
    nextWith (step (({ State.reset with pc := 7 } : State).withFetchWord 32 0x600000FF)) (fun t => t.pc == 0)
      = true := by
  decide

/-- V7 row 1, and row 8 (destination MAR). -/
theorem test_wb_on :
    nextWith (step ((load 0x00150400).setReg .r4 0xABCD)) (fun t => t.reg .r5 == 0xABCD && pcNZ t 1 true false) = true
      ∧ nextWith (step ((load 0x00130400).setReg .r4 0xABCD)) (fun t => t.reg .mar == 0xABCD) = true := by
  decide

/-- V7 rows 4 and 7: abort at step 5. -/
theorem test_wb_on_read_only :
    abortWith (step ((load 0x00120400).setReg .r4 0xABCD)) .mone (fun t => pcNZ t 0 false false) = true
      ∧ abortWith (step (load 0x00100000)) .zero
        (fun t => pcNZ t 0 false false && t.status == .aborted (.readOnlyRegisterWrite .zero)) = true := by
  decide

/-- V7 row 2 under both policies. -/
theorem test_wb_off :
    nextWith (step ((load 0x00050400).setReg .r4 0xABCD)) (fun t => t.reg .r5 == 0x0000 && pcNZ t 1 true false) = true
      ∧ nextWith (step ((loadU 0x00050400).setReg .r4 0xABCD)) (fun t => t.reg .r5 == 0xABCD && pcNZ t 1 true false)
        = true := by
  decide

/-- V7 row 6 under `unconditional`: abort at step 11, branched and not incremented, memory not invoked. -/
theorem test_wb_off_abort_at_step_eleven :
    abortWith (step (((loadU 0x60A26409).setReg .r4 0x8000).setReg .r6 0x0077)) .mone
      (fun t => t.reg .mar == 0x0077 && pcNZ t 9 true false && !t.armed) = true := by
  decide

/-- V3 row 4: MS = 0 does not invoke the unit. -/
theorem test_mem_none :
    nextWith (step { (load 0x00400000).setReg .mar 0x0010 with mem := [(0x10, 0xBEEF)], armed := true })
      (fun t => t.armed && t.reg .mbr == 0x0000 && pcNZ t 1 false true) = true := by
  decide

/-- V8 rows 1 and 2: the two phases of a read. -/
theorem test_mem_read_phases :
    nextWith (step { (load 0x00600000).setReg .mar 0x0010 with mem := [(0x10, 0xBEEF)] })
        (fun t => t.armed && t.reg .mbr == 0x0000 && t.pc == 1) = true
      ∧ nextWith (step { (load 0x00600000).setReg .mar 0x0010 with mem := [(0x10, 0xBEEF)], armed := true })
        (fun t => !t.armed && t.reg .mbr == 0xBEEF && t.pc == 1) = true := by
  decide

/-- V8 rows 8 and 11: a completed read overwrites the write-back; MAR = 0xFFFF addresses cell 65535. -/
theorem test_mem_read_corners :
    nextWith
        (step { ((load 0x007F0500).setReg .mar 0x0010).setReg .r5 0x5A5A with mem := [(0x10, 0xBEEF)], armed := true })
        (fun t => t.reg .mbr == 0xBEEF && !t.armed) = true
      ∧ nextWith (step { (load 0x00600000).setReg .mar 0xFFFF with mem := [(0xFFFF, 0x00AA)], armed := true })
        (fun t => t.reg .mbr == 0x00AA) = true := by
  decide

/-- V8 rows 3 and 4: the two phases of a write. -/
theorem test_mem_write_phases :
    nextWith (step { ((load 0x00200000).setReg .mar 0x0020).setReg .mbr 0x1234 with mem := [(0x20, 0x1111)] })
        (fun t => t.armed && t.mem == [(0x20, 0x1111)]) = true
      ∧ nextWith
        (step { ((load 0x00200000).setReg .mar 0x0020).setReg .mbr 0x1234 with mem := [(0x20, 0x1111)], armed := true })
        (fun t => !t.armed && t.mem == [(0x20, 0x1234)]) = true := by
  decide

/-- V8 row 7: address and datum of the same word. -/
theorem test_mem_write_same_word :
    nextWith (step { ((load 0x00BF4500).setReg .r4 0x0030).setReg .r5 0x5A5A with mem := [(0x10, 0xBEEF)], armed := true })
      (fun t => t.reg .mar == 0x0030 && t.reg .mbr == 0x5A5A && !t.armed && t.mem == [(0x10, 0xBEEF), (0x30, 0x5A5A)])
      = true := by
  decide

/-- A write of zero takes the entry out, and one between two entries goes between them. -/
theorem test_memory_canonical :
    Memory.put [(1, 5), (9, 6)] 4 7 = [(1, 5), (4, 7), (9, 6)] ∧ Memory.put [(1, 5), (9, 6)] 9 0 = [(1, 5)] := by
  decide

/-- E6: the empty program is done at reset, and the zero program is not. -/
theorem test_done : State.reset.done = true ∧ (load 0).done = false ∧ (load 0).halted = true := by
  decide

/-! ## Witnesses: the hypotheses of each statement can be met -/

theorem witness_AssembledRowsDecodeToThemselves :
    rowsWellFormed [.mbrf0, .amuxMar .mbr, .marldOn .r4, .aluNot .r4, .shSpare3, .condGoto 0xFF, .wbOn .mbr, .memRd]
      = true := by
  decide

theorem witness_DecodedRowsAreTheTablesRows :
    (0x00200000 : Word32) ≠ 0 ∧ Group.mem ≠ .halt ∧ Instr.group .memWr = .mem
      ∧ Instr.matchesWord .memWr 0x00200000 = true := by
  decide

theorem witness_AccessorExtractsTheBitRange :
    ((0 ≤ 31 ∧ 31 ≤ 31) ∧ (31 ≤ 31 ∧ 31 ≤ 31) ∧ ((0 : Nat) ≤ 0 ∧ 0 ≤ 31)) ∧ (bitGetMany 0xFFFFFFFF 31 31).toNat = 0 := by
  decide

theorem witness_ConstructionTakesUpTo256Words :
    256 < (List.replicate 257 (0 : Word32)).length ∧ (List.replicate 256 (0 : Word32)).length ≤ 256
      ∧ ({ State.reset with cfg := { prog := List.replicate 256 0, wbPolicy := .gated } } : State).cfg.prog
          = List.replicate 256 0 ∧ (List.replicate 256 (0 : Word32)).length = 256 := by
  exact ⟨by rw [List.length_replicate]; decide, by rw [List.length_replicate], rfl, List.length_replicate⟩

theorem witness_RegisterReadAtTheInterface :
    (15 < 16 ∧ 16 ≤ 16) ∧ fileGet 15 (State.reset.setReg .mbr 7) = .ok 7
      ∧ fileGet 16 State.reset = .error (.invalidRegisterIndex 16) :=
  ⟨by decide, rfl, rfl⟩

theorem witness_RegisterWriteAtTheInterface :
    (3 ≤ 3 ∧ 3 < 16) ∧ (3 ≤ 15 ∧ 15 < 16 ∧ 14 ≠ 15) ∧ 2 < 3 ∧ 16 ≤ 16
      ∧ nextWith (fileSet 3 9 State.reset) (fun t => t.reg .mar == 9) = true
      ∧ abortWith (fileSet 2 0xFFFF State.reset) .mone (fun t => t.regs == Registers.reset) = true := by
  decide

theorem witness_RawWriteReplacesOneCell :
    (0xFFFF : Word16) ≠ 0x0000
      ∧ (load 0x0A151100).status = .running ∧ (load 0x0A151100).fetch = some 0x0A151100
      ∧ nextWith (step (load 0x0A151100)) (fun _ => true) = true
      ∧ completesWrite (decodeFields 0x0A151100) (load 0x0A151100) = false
      ∧ completesWrite (decodeFields 0x00200000) { load 0x00200000 with armed := true } = true := by
  decide

theorem witness_CanonicalMemoryIsDeterminedByItsCells :
    Memory.wf [(0, 1), (65535, 2)] ∧ ∀ a, Memory.cell [(0, 1), (65535, 2)] a = Memory.cell [(0, 1), (65535, 2)] a :=
  ⟨by decide, fun _ => rfl⟩

/-- The two phases, for `MemoryUnitReadInTwoPhases`, `MemoryUnitWriteInTwoPhases`, `SecondInvocationDecidesTheTransfer`,
`CompletedReadSeesTheLatestWrite`, `MemReadLoadsMbrInPhaseTwo` and `MemWriteStoresMbrInPhaseTwo`. -/
theorem witness_both_phases : State.reset.armed = false ∧ ({ State.reset with armed := true } : State).armed = true := by
  decide

/-- For `StepRunsTheRowsOfTheFetchedWord`, `HaltWordIsAFixedPoint` and `PcAfterAStep`. -/
theorem witness_fetch_of_a_halt :
    (load 0).status = .running ∧ (load 0).fetch = some 0 ∧ ∃ t, step (load 0) = .next t :=
  ⟨rfl, rfl, _, rfl⟩

/-- For `StepRunsTheRowsOfTheFetchedWord` and every statement about `Executes`. -/
theorem witness_Executes : Executes (load 0x0A151100) 0x0A151100 := ⟨rfl, rfl, by decide⟩

theorem witness_RefusedExactlyWhenAbortedOrDone :
    (State.reset.abort .constructionError).status = .aborted .constructionError
      ∧ (State.reset.status = .running ∧ State.reset.cfg.prog.length ≤ State.reset.pc.toNat)
      ∧ step State.reset = .refused .programDone :=
  ⟨rfl, by decide, rfl⟩

/-- Both clauses where they meet: S = 2 is fatal, S = 3 is not, under both policies. -/
theorem witness_WordBitsDecideAbortOrCompletion :
    (load 0x00120000).status = .running ∧ (load 0x00120000).fetch = some 0x00120000
      ∧ fatalWord .gated 0x00120000 = true ∧ fatalWord .gated 0x00130000 = false
      ∧ fatalWord .unconditional 0x00020000 = true ∧ fatalWord .unconditional 0x00030000 = false
      ∧ fatalWord .gated 0x00020000 = false ∧ fatalWord .unconditional 0 = false := by
  decide

theorem witness_AmuxSelectsOperandA : ∃ t, exec (.amuxMar .r4) State.reset = .next t := ⟨_, rfl⟩

theorem witness_MarLoadCopiesRegisterB :
    (∃ t, (decodeFields 0x00804000).marld = true
        ∧ executeFields (decodeFields 0x00804000) State.reset = .next t)
      ∧ ∃ left, (decodeFields 0x00914200).marld = true ∧ (decodeFields 0x00914200).ens = true
        ∧ executeFields (decodeFields 0x00914200) State.reset = .fault (.readOnlyRegisterWrite .one left) :=
  ⟨⟨_, rfl, rfl⟩, _, rfl, rfl, rfl⟩

/-- For `WbOnWritesTheShiftedValue` and `WbOffFollowsThePolicy`: the destinations where the clauses meet, and both
policies. -/
theorem witness_write_back :
    readOnly .mone = true ∧ readOnly .mar = false ∧ (load 1).cfg.wbPolicy = .gated
      ∧ (loadU 1).cfg.wbPolicy = .unconditional := by
  decide

theorem witness_ReservedEncodingsHaveNoEffect :
    ∃ t, executeFields (decodeFields 0x001F0100) State.reset = .next t ∧ t.reg .mbr ≠ State.reset.reg .mbr :=
  ⟨_, rfl, by decide⟩

theorem witness_FrameOfTheSelectingRows :
    Instr.shLsh ∈ [Instr.amuxAbus .r4, .amuxMar .r4, .shNone, .shLsh, .shRsh, .shSpare3, .marldOff, .condNone 0,
      .memNone true, .mbrf0, .mbrf1] ∧ ∃ t, exec .shLsh State.reset = .next t :=
  ⟨by decide, _, rfl⟩

theorem witness_FrameOfTheAluRowsAndHalt :
    Instr.aluAdd .r4 ∈ [Instr.aluPass .r4, .aluAdd .r4, .aluAnd .r4, .aluNot .r4, .halt]
      ∧ ∃ t, exec (.aluAdd .r4) State.reset = .next t :=
  ⟨by decide, _, rfl⟩

theorem witness_FrameOfTheBranchRows :
    Instr.condJz 4 ∈ [Instr.condJn 4, .condJz 4, .condGoto 4] ∧ ∃ t, exec (.condJz 4) State.reset = .next t :=
  ⟨by decide, _, rfl⟩

theorem witness_FrameOfTheRegisterRows :
    (∃ t, exec (.marldOn .one) State.reset = .next t) ∧ (∃ t, exec (.wbOn .r14) State.reset = .next t)
      ∧ (∃ t, exec (.wbOff .zero) State.reset = .next t) ∧ readOnly .zero = true :=
  ⟨⟨_, rfl⟩, ⟨_, rfl⟩, ⟨_, rfl⟩, rfl⟩

theorem witness_FrameOfTheMemoryRows :
    (∃ t, exec .memRd { State.reset with armed := true } = .next t)
      ∧ (∃ t, exec .memWr { State.reset with armed := true } = .next t)
      ∧ memAddress State.reset = 0 ∧ (65535 : Nat) ≠ (0 : Word16).toNat :=
  ⟨⟨_, rfl⟩, ⟨_, rfl⟩, rfl, by decide⟩

theorem witness_WordCompletesWithItsFinalState :
    Executes (load 0x0A151100) 0x0A151100 ∧ fatalWord (load 0x0A151100).cfg.wbPolicy 0x0A151100 = false :=
  ⟨witness_Executes, by decide⟩

theorem witness_PcAfterAStep :
    (∃ t, step (load 0x600000FF) = .next t) ∧ (load 0x600000FF).fetch = some 0x600000FF
      ∧ branches (decodeFields 0x600000FF) (load 0x600000FF) = true
      ∧ (∃ t, step (load 0x01000000) = .next t) ∧ branches (decodeFields 0x01000000) (load 0x01000000) = false :=
  ⟨⟨_, rfl⟩, rfl, by decide, ⟨_, rfl⟩, by decide⟩

theorem witness_FlagsComeFromTheAluResult :
    (∃ t, step (load 0x0A151100) = .next t)
      ∧ Executes (loadU 0x00000400) 0x00000400 ∧ (decodeFields 0x00000400).ens = false
      ∧ ∃ t, step (loadU 0x00000400) = .fault (.readOnlyRegisterWrite .zero t) :=
  ⟨⟨_, rfl⟩, ⟨rfl, rfl, by decide⟩, by decide, _, rfl⟩

theorem witness_ReadOnlyDestinationAbortsAtStepFive :
    Executes (load 0x00120400) 0x00120400 ∧ (decodeFields 0x00120400).ens = true
      ∧ (decodeFields 0x00120400).s.toBits.toNat < 3 :=
  ⟨⟨rfl, rfl, by decide⟩, by decide, by decide⟩

/-- The clauses at their boundary (S = 2 and S = 3), with a completed read into MBR and without. -/
theorem witness_UnconditionalPolicyWritesOrAborts :
    (Executes (loadU 0x00030400) 0x00030400 ∧ 3 ≤ (decodeFields 0x00030400).s.toBits.toNat
        ∧ (decodeFields 0x00030400).s ≠ .mbr)
      ∧ (Executes { loadU 0x006F0000 with armed := true } 0x006F0000 ∧ (decodeFields 0x006F0000).s = .mbr
        ∧ completesRead (decodeFields 0x006F0000) { loadU 0x006F0000 with armed := true } = true)
      ∧ (Executes (loadU 0x00020400) 0x00020400 ∧ (decodeFields 0x00020400).s.toBits.toNat < 3
        ∧ (decodeFields 0x00020400).ens = false)
      ∧ (Executes (loadU 0x00120400) 0x00120400 ∧ (decodeFields 0x00120400).s.toBits.toNat < 3
        ∧ (decodeFields 0x00120400).ens = true)
      ∧ (loadU 0x00030400).cfg.wbPolicy = .unconditional :=
  ⟨⟨⟨rfl, rfl, by decide⟩, by decide, by decide⟩, ⟨⟨rfl, rfl, by decide⟩, by decide, by decide⟩,
    ⟨⟨rfl, rfl, by decide⟩, by decide, by decide⟩, ⟨⟨rfl, rfl, by decide⟩, by decide, by decide⟩, rfl⟩

theorem witness_IgnoredFieldsChangeNothing :
    branches (decodeFields 0x01000000) State.reset = false ∧ (decodeFields 0x80000000).amux = true
      ∧ ((decodeFields 0x18000000).marld = false ∧ (decodeFields 0x18000000).alu = .bitNot)
      ∧ ((decodeFields 0x01000000).ens = false ∧ State.reset.cfg.wbPolicy = .gated)
      ∧ (decodeFields 0x00400000).ms = false := by
  decide

theorem witness_AbortedMachineHasNoFurtherStep : ∃ e, step (load 0x00100000) = .fault e := ⟨_, rfl⟩

theorem witness_StepKeepsTheInvariantAndTheProgram :
    (load 0x0A151100).Inv ∧ ∃ t, step (load 0x0A151100) = .next t :=
  ⟨⟨by decide, by decide, by decide, rfl, rfl⟩, _, rfl⟩

theorem witness_ArmedIsTheParityOfMemoryWords :
    ∃ t, runSteps 1 (load 0x00600000) = .next t ∧ t.armed = true ∧ memoryWords 1 (load 0x00600000) = 1 :=
  ⟨_, rfl, rfl, by decide⟩

/-- A gap (pc past the program's end), the boundary (pc at its end) and a replacement (pc inside). -/
theorem witness_SuppliedWordRunsNext :
    (0xFFFFFFFF : Nat) < 2 ^ 32
      ∧ (({ load 5 with pc := 3 } : State).withFetchWord 32 7).cfg.prog = [5, 0, 0, 7]
      ∧ (({ load 5 with pc := 1 } : State).withFetchWord 32 7).cfg.prog = [5, 7]
      ∧ (({ load 5 with pc := 0, cfg := { prog := [5, 6], wbPolicy := .gated } } : State).withFetchWord 32 7).cfg.prog
        = [7, 6] := by
  decide

end Sys2Proof.Tests
end

/-! SUPPORT. The register file at its own interface, the pc after a step, and WB.ON as a row of its own
(spec/10_state.md R22, R23, R27; spec/44_writeback.md R161). -/

namespace Sys2Proof.Machine

/-! ## The register file's `get` and `set` -/

/-- Every index below 16 is the index of a slot (R21). -/
theorem exists_toBits_of_lt {i : Nat} (h : i < 16) : ∃ r : Reg, r.toBits.toNat = i :=
  ⟨Reg.ofBits (BitVec.ofNat 4 i), by rw [toBits_ofBits, BitVec.toNat_ofNat, Nat.mod_eq_of_lt (by omega)]⟩

theorem fileGet_toBits (r : Reg) (s : State) : fileGet r.toBits.toNat s = .ok (s.reg r) := by
  rw [fileGet, regOfIndex_toBits]

theorem fileGet_of_ge {i : Nat} (h : 16 ≤ i) (s : State) : fileGet i s = .error (.invalidRegisterIndex i) := by
  rw [fileGet, regOfIndex_eq_none i h]

theorem fileSet_toBits (r : Reg) (v : Word16) (s : State) : fileSet r.toBits.toNat v s = writeReg r v s := by
  rw [fileSet, regOfIndex_toBits]

theorem fileSet_of_ge {i : Nat} (h : 16 ≤ i) (v : Word16) (s : State) :
    fileSet i v s = .fault (.invalidRegisterIndex i) := by
  rw [fileSet, regOfIndex_eq_none i h]

/-- A write to one slot is not seen through any other index, a slot's or not. -/
theorem fileGet_setReg_of_ne {j : Nat} {r : Reg} (h : j ≠ r.toBits.toNat) (v : Word16) (s : State) :
    fileGet j (s.setReg r v) = fileGet j s := by
  rcases Nat.lt_or_ge j 16 with hj | hj
  · obtain ⟨q, rfl⟩ := exists_toBits_of_lt hj
    have hq : q ≠ r := fun e => h (congrArg (fun x : Reg => x.toBits.toNat) e)
    rw [fileGet_toBits, fileGet_toBits, reg_setReg_of_ne s r q v hq]
  · rw [fileGet_of_ge hj, fileGet_of_ge hj]

theorem writeReg_of_writable {r : Reg} (h : readOnly r = false) (v : Word16) (s : State) :
    writeReg r v s = .next (s.setReg r v) := by
  rw [writeReg, h]
  rfl

theorem writeReg_of_readOnly {r : Reg} (h : readOnly r = true) (v : Word16) (s : State) :
    writeReg r v s = raiseReadOnly r s := by
  rw [writeReg, h]
  rfl

/-! ## The fatal steps -/

/-- A step that faults is a fatal write to a constant slot: at step 5 (R160), or at step 11 under the policy
`unconditional` (R163). -/
theorem step_eq_fault {s : State} {e : Fault} (h : step s = .fault e) :
    ∃ w left, Executes s w ∧ readOnly (decodeFields w).s = true
      ∧ (((decodeFields w).ens = true ∧ left = s.beginStep)
        ∨ ((decodeFields w).ens = false ∧ s.cfg.wbPolicy = .unconditional
          ∧ left = afterTen (decodeFields w) s.beginStep))
      ∧ e = .readOnlyRegisterWrite (decodeFields w).s (left.abort (.readOnlyRegisterWrite (decodeFields w).s)) := by
  rcases step_eq s with ⟨c, _, hstep⟩ | ⟨_, _, hstep⟩ | ⟨w, hrun, hfetch, hstep⟩ <;> rw [h] at hstep
  · cases hstep
  · cases hstep
  · rw [executeWord] at hstep
    split at hstep
    · cases hstep
    · next hw =>
      have hx : Executes s w := ⟨hrun, hfetch, hw⟩
      rcases executeFields_cases (decodeFields w) s.beginStep with
        ⟨hens, hro, hend⟩ | ⟨hens, hro, hpol, hend⟩ | ⟨_, hend⟩ <;> rw [hend] at hstep <;> cases hstep
      · exact ⟨w, _, hx, hro, .inl ⟨hens, rfl⟩, rfl⟩
      · exact ⟨w, _, hx, hro, .inr ⟨hens, hpol, rfl⟩, rfl⟩

/-- No step names an index outside the register file (R22's derived clause, R184). -/
theorem step_ne_invalidRegisterIndex (s : State) (i : Nat) : step s ≠ .fault (.invalidRegisterIndex i) := by
  intro h
  obtain ⟨w, left, _, _, _, he⟩ := step_eq_fault h
  cases he

/-! ## The program counter after a step -/

/-- A completed step on a nonzero word ends at the program counter of R27. -/
theorem step_pc_of_executes {s t : State} {w : Word32} (hx : Executes s w) (h : step s = .next t) :
    t.pc.toNat = finalPc (decodeFields w) s := by
  obtain ⟨_, hfetch, hw⟩ := hx
  rcases step_eq_next h with ⟨_, hfetch0, _⟩ | ⟨w', ⟨_, hfetch', _⟩, _, rfl⟩
  · exact absurd (Option.some.inj (hfetch.symm.trans hfetch0)) hw
  · obtain rfl : w' = w := Option.some.inj (hfetch'.symm.trans hfetch)
    rw [endStep_pc, memStage_pc, afterWriteBack_pc, takes_beginStep, beginStep_pc, finalPc, branches_eq]
    exact BitVec.toNat_add _ _

/-- A halt leaves the program counter where it is (R112). -/
theorem step_pc_of_halt {s t : State} (hfetch : s.fetch = some 0) (h : step s = .next t) : t.pc = s.pc := by
  rcases step_eq_next h with ⟨_, _, rfl⟩ | ⟨w, ⟨_, hfetch', hw⟩, _, _⟩
  · exact beginStep_pc s
  · exact absurd (Option.some.inj (hfetch'.symm.trans hfetch)) hw

/-! ## WB.ON as a row -/

/-- The row WB.ON is the checked write of the shifted value (R161; log entry 24). -/
theorem exec_wbOn (d : Reg) (s : State) : exec (.wbOn d) s = writeReg d s.datapath.shifted s := rfl

/-! ## The obligations -/

/-- Settles O9: the sixteen indices through `fileGet_toBits`, the last clause through `step_eq_fault`. -/
theorem registerReadAtTheInterface : Obligations.RegisterReadAtTheInterface := by
  intro s
  refine ⟨fun r => fileGet_toBits r s, fun i hi => ?_, fileGet_toBits .zero s, fileGet_toBits .one s,
    fileGet_toBits .mone s, fun i hi => fileGet_of_ge hi s, step_ne_invalidRegisterIndex s⟩
  obtain ⟨r, rfl⟩ := exists_toBits_of_lt hi
  exact ⟨s.reg r, fileGet_toBits r s⟩

/-- Settles O10: below 16 the index names a slot, and the checked write answers for it by that index. -/
theorem registerWriteAtTheInterface : Obligations.RegisterWriteAtTheInterface := by
  intro s v i
  refine ⟨fun hlo hhi => ?_, fun hlo => ?_, fun hhi => fileSet_of_ge hhi v s⟩
  · obtain ⟨r, rfl⟩ := exists_toBits_of_lt hhi
    have hr : readOnly r = false := by rw [readOnly_iff_index, decide_eq_false (by omega)]
    refine ⟨s.setReg r v, ?_, ?_, fun j hj => fileGet_setReg_of_ne hj v s, rfl⟩
    · rw [fileSet_toBits, writeReg_of_writable hr]
    · rw [fileGet_toBits, reg_setReg_self s r v hr]
  · obtain ⟨r, rfl⟩ := exists_toBits_of_lt (show i < 16 by omega)
    have hr : readOnly r = true := by rw [readOnly_iff_index, decide_eq_true hlo]
    refine ⟨r, s.abort (.readOnlyRegisterWrite r), ?_, rfl, abort_regs s _⟩
    rw [fileSet_toBits, writeReg_of_readOnly hr, raiseReadOnly]

/-- Settles O49: a halt keeps `pc`; any other word ends at `finalPc`, split on whether its branch is taken. -/
theorem pcAfterAStep : Obligations.PcAfterAStep := by
  intro s t w hrun hfetch h
  refine ⟨fun hw => step_pc_of_halt (hw ▸ hfetch) h, fun hw => ?_⟩
  have hpc : t.pc.toNat = finalPc (decodeFields w) s := step_pc_of_executes ⟨hrun, hfetch, hw⟩ h
  constructor <;> intro hb <;> rw [hpc, finalPc, hb] <;> rfl

/-- Settles O37: the row is the checked write, which a writable destination passes and a constant one fails. -/
theorem wbOnWritesTheShiftedValue : Obligations.WbOnWritesTheShiftedValue := by
  intro d s
  refine ⟨rfl, rfl, fun hd => ?_, fun hd => ?_⟩
  · exact ⟨s.setReg d s.datapath.shifted, by rw [exec_wbOn, writeReg_of_writable hd],
      reg_setReg_self s d _ hd, fun r hr => reg_setReg_of_ne s d r _ hr, rfl⟩
  · exact ⟨s.abort (.readOnlyRegisterWrite d), by rw [exec_wbOn, writeReg_of_readOnly hd, raiseReadOnly]⟩

end Sys2Proof.Machine

/-! SUPPORT. The raw memory operations, the two phases of the memory unit and their pairing, and what a completed step
does to the memory array and to `armed` (spec/20_memory.md R54, R56 to R59, R62; spec/70_reset_and_hazards.md R221). -/

namespace Sys2Proof.Machine

/-! ## The raw read and write -/

/-- A raw read after a raw write: the value at the written address, what was there at every other (R54). -/
theorem memRead_memWrite (a b v : Word16) (s : State) :
    memRead b (memWrite a v s) = if b = a then v else memRead b s := by
  simp only [memRead, memWrite_mem, cell_put, BitVec.toNat_inj]

theorem memRead_reset (a : Word16) : memRead a State.reset = 0x0000 := rfl

/-! ## The memory unit's phases -/

theorem muRead_of_idle (a : Word16) {s : State} (h : s.armed = false) :
    muRead a s = (none, { s with armed := true }) :=
  ((muRead_eq a s).resolve_right fun e => by simp [h] at e).2

theorem muRead_of_armed (a : Word16) {s : State} (h : s.armed = true) :
    muRead a s = (some (memRead a s), { s with armed := false }) :=
  ((muRead_eq a s).resolve_left fun e => by simp [h] at e).2

theorem muWrite_of_idle (a v : Word16) {s : State} (h : s.armed = false) :
    muWrite a v s = (false, { s with armed := true }) :=
  ((muWrite_eq a v s).resolve_right fun e => by simp [h] at e).2

theorem muWrite_of_armed (a v : Word16) {s : State} (h : s.armed = true) :
    muWrite a v s = (true, { memWrite a v s with armed := false }) :=
  ((muWrite_eq a v s).resolve_left fun e => by simp [h] at e).2

/-- A read on the unit that some invocation has just armed gives the cell and leaves no trace of that invocation
(R58; decision D14). -/
theorem muRead_after_arming (b : Word16) {s : State} (h : s.armed = false) :
    muRead b { s with armed := true } = (some (memRead b s), s) := by
  rw [muRead_of_armed b rfl, ← h]
  rfl

/-- A write on the unit that some invocation has just armed stores its own datum at its own address, once (R58;
decision D14). -/
theorem muWrite_after_arming (b v : Word16) {s : State} (h : s.armed = false) :
    muWrite b v { s with armed := true } = (true, memWrite b v s) := by
  rw [muWrite_of_armed b v rfl, ← h]
  rfl

/-! ## What a completed step does to the array and to the phase -/

/-- Only the second invocation of a write reaches the array (R54, R172). -/
theorem memStage_mem_of_not_completesWrite {f : Fields} {s : State} (h : completesWrite f s = false) :
    (memStage f s).mem = s.mem := by
  unfold completesWrite at h
  unfold memStage
  cases hms : f.ms
  · rfl
  · cases hrw : f.rdwr <;> cases ha : s.armed
    case false.true => simp [hms, hrw, ha] at h
    all_goals rfl

/-- A completed step that is not a completed write of the memory unit leaves the array as it was. -/
theorem step_mem_of_not_completesWrite {s t : State} {w : Word32} (hfetch : s.fetch = some w)
    (hw : w = 0 ∨ completesWrite (decodeFields w) s = false) (h : step s = .next t) : t.mem = s.mem := by
  rcases step_eq_next h with ⟨_, _, rfl⟩ | ⟨w', ⟨_, hfetch', hne⟩, _, rfl⟩
  · exact beginStep_mem s
  · obtain rfl : w' = w := Option.some.inj (hfetch'.symm.trans hfetch)
    have hc : completesWrite (decodeFields w') (afterWriteBack (decodeFields w') s.beginStep) = false := by
      rw [completesWrite, afterWriteBack_armed, beginStep_armed]
      exact hw.resolve_left hne
    rw [endStep_mem, memStage_mem_of_not_completesWrite hc, afterWriteBack_mem, beginStep_mem]

theorem invokesMemory_of_fetch {s : State} {w : Word32} (h : s.fetch = some w) :
    invokesMemory s = (decodeFields w).ms := by
  rw [invokesMemory, h]
  rfl

/-- A completed step flips the phase exactly when its word has MS = 1 (R59; decision D15: a first invocation stays
pending however many words without one follow). -/
theorem step_armed {s t : State} (h : step s = .next t) : t.armed = (s.armed ^^ invokesMemory s) := by
  rcases step_eq_next h with ⟨_, hfetch, rfl⟩ | ⟨w, ⟨_, hfetch, _⟩, _, rfl⟩
  · have hms : (decodeFields 0).ms = false := by decide
    rw [invokesMemory_of_fetch hfetch, hms, Bool.xor_false, beginStep_armed]
  · rw [invokesMemory_of_fetch hfetch, endStep_armed, memStage_armed, afterWriteBack_armed, beginStep_armed]

/-- Counting one more event, or none, flips the parity of a count, or keeps it. -/
theorem parity_ite_add (b : Bool) (k : Nat) :
    decide (((if b then 1 else 0) + k) % 2 = 1) = (b ^^ decide (k % 2 = 1)) := by
  cases b
  · simp
  · rw [Bool.true_xor, ← decide_not, decide_eq_decide, if_pos rfl]
    omega

/-! ## The obligations -/

/-- Settles O57, by induction on the length of the run: each step flips the phase exactly as it flips the parity. -/
theorem armedIsTheParityOfMemoryWords : Obligations.ArmedIsTheParityOfMemoryWords := by
  intro n
  induction n with
  | zero =>
    intro s t h
    cases h
    simp [memoryWords]
  | succ n ih =>
    intro s t h
    rw [runSteps_succ] at h
    obtain ⟨u, hstep, hrun⟩ := andThen_eq_next h
    rw [ih u t hrun, step_armed hstep, memoryWords_succ_of_next n hstep, parity_ite_add, Bool.xor_assoc]

/-- Settles O11: the first two clauses are `memRead_memWrite` and the reset array, the last inverts the step. -/
theorem rawWriteReplacesOneCell : Obligations.RawWriteReplacesOneCell := by
  refine ⟨fun s a b v => ⟨?_, fun hb => ?_⟩, memRead_reset,
    fun s t w _ hfetch h hw => step_mem_of_not_completesWrite hfetch hw h⟩
  · rw [memRead_memWrite, if_pos rfl]
  · rw [memRead_memWrite, if_neg hb]

/-- Settles O15: either first invocation only arms, and the second then acts on the state it found. -/
theorem secondInvocationDecidesTheTransfer : Obligations.SecondInvocationDecidesTheTransfer := by
  intro s a b v x h
  rw [muRead_of_idle a h, muWrite_of_idle a x h]
  exact ⟨muRead_after_arming b h, muRead_after_arming b h, muWrite_after_arming b v h, muWrite_after_arming b v h⟩

/-- Settles O16: the completed write leaves the unit idle, so the two reads after it pair, and the second reads the
written array. -/
theorem completedReadSeesTheLatestWrite : Obligations.CompletedReadSeesTheLatestWrite := by
  intro s a b c v h
  have hidle : ({ memWrite a v s with armed := false } : State).armed = false := rfl
  rw [muWrite_of_armed a v h, muRead_of_idle c hidle, muRead_after_arming b hidle]
  exact congrArg some (memRead_memWrite a b v s)

/-- Settles O13: one case of `muRead_eq` for each phase. -/
theorem memoryUnitReadInTwoPhases : Obligations.MemoryUnitReadInTwoPhases :=
  fun a _ => ⟨fun h => muRead_of_idle a h, fun h => muRead_of_armed a h⟩

/-- Settles O14: one case of `muWrite_eq` for each phase, and `cell_put` for the cells after a store. -/
theorem memoryUnitWriteInTwoPhases : Obligations.MemoryUnitWriteInTwoPhases := by
  refine fun a v s => ⟨fun h => muWrite_of_idle a v h, fun h => ?_⟩
  exact ⟨_, muWrite_of_armed a v h, rfl, rfl, fun x => cell_put s.mem a.toNat x v⟩

end Sys2Proof.Machine

/-! SUPPORT. Each field of a word as the word under a mask, and the accessor (spec/30_encoding.md R80 to R85). -/

namespace Sys2Proof

/-! ## The fields of a word under their masks -/

/-- A word under the mask of a field is that field at its place. -/
theorem and_fieldMask (w : Word32) (p n : Nat) :
    w &&& (BitVec.allOnes n).setWidth 32 <<< p = (w.extractLsb' p n).setWidth 32 <<< p := by
  apply BitVec.eq_of_getLsbD_eq
  intro i _
  by_cases hp : i < p
  · simp [hp]
  · have hi : p + (i - p) = i := by omega
    simp only [BitVec.getLsbD_and, BitVec.getLsbD_shiftLeft, BitVec.getLsbD_setWidth, BitVec.getLsbD_allOnes,
      BitVec.getLsbD_extractLsb', hi]
    ac_nf

/-- A range of one bit is that bit. -/
theorem extractLsb'_bit (w : Word32) (p : Nat) : w.extractLsb' p 1 = BitVec.ofBool (w.getLsbD p) := by
  apply BitVec.eq_of_getLsbD_eq
  intro i hi
  obtain rfl : i = 0 := by omega
  simp

/-- A word under the mask of one bit is that bit at its place. -/
theorem and_bitMask (w : Word32) (p : Nat) :
    w &&& (1 : Word32) <<< p = (BitVec.ofBool (w.getLsbD p)).setWidth 32 <<< p := by
  rw [← extractLsb'_bit]
  exact and_fieldMask w p 1

section
variable (w : Word32)

theorem and_addrMask : w &&& (0x000000FF : Word32) = (decodeFields w).addr.setWidth 32 := by
  rw [← BitVec.shiftLeft_zero ((decodeFields w).addr.setWidth 32)]
  exact and_fieldMask w 0 8

theorem and_aMask : w &&& (0x00000F00 : Word32) = (decodeFields w).a.toBits.setWidth 32 <<< 8 := by
  rw [decodeFields, Machine.toBits_ofBits]
  exact and_fieldMask w 8 4

theorem and_bMask : w &&& (0x0000F000 : Word32) = (decodeFields w).b.toBits.setWidth 32 <<< 12 := by
  rw [decodeFields, Machine.toBits_ofBits]
  exact and_fieldMask w 12 4

theorem and_sMask : w &&& (0x000F0000 : Word32) = (decodeFields w).s.toBits.setWidth 32 <<< 16 := by
  rw [decodeFields, Machine.toBits_ofBits]
  exact and_fieldMask w 16 4

theorem and_ensMask : w &&& (0x00100000 : Word32) = (BitVec.ofBool (decodeFields w).ens).setWidth 32 <<< 20 :=
  and_bitMask w 20

theorem and_msMask : w &&& (0x00200000 : Word32) = (BitVec.ofBool (decodeFields w).ms).setWidth 32 <<< 21 :=
  and_bitMask w 21

theorem and_rdwrMask : w &&& (0x00400000 : Word32) = (BitVec.ofBool (decodeFields w).rdwr).setWidth 32 <<< 22 :=
  and_bitMask w 22

theorem and_marldMask : w &&& (0x00800000 : Word32) = (BitVec.ofBool (decodeFields w).marld).setWidth 32 <<< 23 :=
  and_bitMask w 23

theorem and_mbrfMask : w &&& (0x01000000 : Word32) = (BitVec.ofBool (decodeFields w).mbrf).setWidth 32 <<< 24 :=
  and_bitMask w 24

theorem and_shMask : w &&& (0x06000000 : Word32) = (decodeFields w).sh.toBits.setWidth 32 <<< 25 := by
  rw [decodeFields, ShMode.toBits_ofBits]
  exact and_fieldMask w 25 2

theorem and_aluMask : w &&& (0x18000000 : Word32) = (decodeFields w).alu.toBits.setWidth 32 <<< 27 := by
  rw [decodeFields, AluMode.toBits_ofBits]
  exact and_fieldMask w 27 2

theorem and_condMask : w &&& (0x60000000 : Word32) = (decodeFields w).cond.toBits.setWidth 32 <<< 29 := by
  rw [decodeFields, CondMode.toBits_ofBits]
  exact and_fieldMask w 29 2

theorem and_amuxMask : w &&& (0x80000000 : Word32) = (BitVec.ofBool (decodeFields w).amux).setWidth 32 <<< 31 :=
  and_bitMask w 31

/-- The thirteen masks cover every bit of the word (R85). -/
@[simp] theorem encodeFields_decodeFields : encodeFields (decodeFields w) = w := by
  simp only [encodeFields, ← and_addrMask, ← and_aMask, ← and_bMask, ← and_sMask, ← and_ensMask, ← and_msMask,
    ← and_rdwrMask, ← and_marldMask, ← and_mbrfMask, ← and_shMask, ← and_aluMask, ← and_condMask, ← and_amuxMask]
  simp only [← BitVec.and_or_distrib_left]
  exact BitVec.and_allOnes

end

/-- Settles O1: word to fields and back by the covering masks, fields to word and back field by field. -/
theorem encodingRebuildsEveryWord : Obligations.EncodingRebuildsEveryWord :=
  ⟨encodeFields_decodeFields, decodeFields_encodeFields⟩

/-! ## The accessor -/

/-- `get_many` on unsigned numbers (R81). -/
theorem toNat_bitGetMany (w : Word32) {start stop : Nat} (h : start ≤ stop ∧ stop ≤ 31) :
    (bitGetMany w start stop h).toNat = w.toNat / 2 ^ start % 2 ^ (stop - start) := by
  rw [bitGetMany, BitVec.extractLsb'_toNat, Nat.shiftRight_eq_div_pow]

/-- Settles O5: an empty range is a number below 2^0. -/
theorem accessorExtractsTheBitRange : Obligations.AccessorExtractsTheBitRange := by
  refine ⟨fun w i => Nat.testBit_eq_decide_div_mod_eq, fun w start stop h => toNat_bitGetMany w h,
    fun w start h => ?_⟩
  rw [toNat_bitGetMany, Nat.sub_self, pow_zero, Nat.mod_one]

end Sys2Proof

/-! SUPPORT. Which lists of rows a word selects, and the table's masks on them (spec/30_encoding.md R93, R101). -/

namespace Sys2Proof

/-! ## The well-formed lists of rows -/

/-- A row read back in its own group from its own word, whatever the row (R101). -/
theorem decodeRow_group_encode (i : Instr) : decodeRow i.group (encode i) = some i := by
  cases i with
  | halt => exact Laws.RowRoundTrip.halt.1
  | aluPass b => exact (Laws.RowRoundTrip.aluPass b).1
  | aluAdd b => exact (Laws.RowRoundTrip.aluAdd b).1
  | aluAnd b => exact (Laws.RowRoundTrip.aluAnd b).1
  | aluNot b => exact (Laws.RowRoundTrip.aluNot b).1
  | shNone => exact Laws.RowRoundTrip.shNone.1
  | shLsh => exact Laws.RowRoundTrip.shLsh.1
  | shRsh => exact Laws.RowRoundTrip.shRsh.1
  | shSpare3 => exact Laws.RowRoundTrip.shSpare3.1
  | condNone addr => exact (Laws.RowRoundTrip.condNone addr).1
  | condJn addr => exact (Laws.RowRoundTrip.condJn addr).1
  | condJz addr => exact (Laws.RowRoundTrip.condJz addr).1
  | condGoto addr => exact (Laws.RowRoundTrip.condGoto addr).1
  | amuxAbus a => exact (Laws.RowRoundTrip.amuxAbus a).1
  | amuxMar a => exact (Laws.RowRoundTrip.amuxMar a).1
  | marldOff => exact Laws.RowRoundTrip.marldOff.1
  | marldOn b => exact (Laws.RowRoundTrip.marldOn b).1
  | wbOff d => exact (Laws.RowRoundTrip.wbOff d).1
  | wbOn d => exact (Laws.RowRoundTrip.wbOn d).1
  | memNone rdwr => exact (Laws.RowRoundTrip.memNone rdwr).1
  | memWr => exact Laws.RowRoundTrip.memWr.1
  | memRd => exact Laws.RowRoundTrip.memRd.1
  | mbrf0 => exact Laws.RowRoundTrip.mbrf0.1
  | mbrf1 => exact Laws.RowRoundTrip.mbrf1.1

theorem decodeRow_encode_of_group {i : Instr} {g : Group} (h : i.group = g) : decodeRow g (encode i) = some i :=
  h ▸ decodeRow_group_encode i

theorem decodeFields_zero : decodeFields 0 = Fields.blank := by decide

theorem encodeFields_eq_zero_iff (f : Fields) : encodeFields f = 0 ↔ f = Fields.blank := by
  refine ⟨fun h => ?_, fun h => h ▸ ?_⟩
  · rw [← decodeFields_encodeFields f, h, decodeFields_zero]
  · decide

theorem decodeFields_eq_blank_iff (w : Word32) : decodeFields w = Fields.blank ↔ w = 0 := by
  rw [← encodeFields_eq_zero_iff, encodeFields_decodeFields]

/-- A field tuple is known by its eight rows. -/
theorem Fields.rows_injective : Function.Injective Fields.rows := by
  intro f g h
  rw [← decodeFields_encodeFields f, ← assemble_rows, h, assemble_rows, decodeFields_encodeFields]

theorem rowsWellFormed_rows {f : Fields} (h : f ≠ Fields.blank) : rowsWellFormed f.rows = true := by
  have hne : f.rows ≠ blankRows := fun e => h (Fields.rows_injective e)
  obtain ⟨hmbrf, hamux, hmarld, halu, hsh, hcond, hwb, hmem⟩ := rows_groups f
  have hrows : rowsWellFormed f.rows = (_ && f.rows != blankRows) := rfl
  simp [hrows, hne, hmbrf, hamux, hmarld, halu, hsh, hcond, hwb, hmem, busBAgrees_rows]

/-- The MAR-load row agrees with the ALU row when both name one `B` field. -/
theorem busBAgrees_marldOn_aluRow (b : Reg) (f : Fields) : busBAgrees (.marldOn b) f.aluRow = (b == f.b) := by
  unfold Fields.aluRow
  cases f.alu <;> rfl

/-- With the `B` field of the ALU row, which it agrees with, a MAR-load row is still the row of its bit. -/
theorem marldRow_of_busBAgrees {m l : Fields} (h : busBAgrees m.marldRow l.aluRow = true) :
    (if m.marld then .marldOn l.b else .marldOff) = m.marldRow := by
  unfold Fields.marldRow at h ⊢
  cases hm : m.marld
  · rfl
  · rw [hm, if_pos rfl, busBAgrees_marldOn_aluRow, beq_iff_eq] at h
    rw [h]

/-- One row of each of the eight groups, one `B` field among them, are the rows of a field tuple: each field comes
from the row that carries it. -/
theorem exists_rows_eq {x am ml al sh c w me : Instr} (hx : x.group = .mbrf) (ham : am.group = .amux)
    (hml : ml.group = .marld) (hal : al.group = .alu) (hsh : sh.group = .sh) (hc : c.group = .cond)
    (hw : w.group = .wb) (hme : me.group = .mem) (hb : busBAgrees ml al = true) :
    ∃ f : Fields, f.rows = [x, am, ml, al, sh, c, w, me] := by
  obtain ⟨fx, rfl⟩ : ∃ f : Fields, f.mbrfRow = x := ⟨_, Option.some.inj (decodeRow_encode_of_group hx)⟩
  obtain ⟨fam, rfl⟩ : ∃ f : Fields, f.amuxRow = am := ⟨_, Option.some.inj (decodeRow_encode_of_group ham)⟩
  obtain ⟨fml, rfl⟩ : ∃ f : Fields, f.marldRow = ml := ⟨_, Option.some.inj (decodeRow_encode_of_group hml)⟩
  obtain ⟨fal, rfl⟩ : ∃ f : Fields, f.aluRow = al := ⟨_, Option.some.inj (decodeRow_encode_of_group hal)⟩
  obtain ⟨fsh, rfl⟩ : ∃ f : Fields, f.shRow = sh := ⟨_, Option.some.inj (decodeRow_encode_of_group hsh)⟩
  obtain ⟨fc, rfl⟩ : ∃ f : Fields, f.condRow = c := ⟨_, Option.some.inj (decodeRow_encode_of_group hc)⟩
  obtain ⟨fw, rfl⟩ : ∃ f : Fields, f.wbRow = w := ⟨_, Option.some.inj (decodeRow_encode_of_group hw)⟩
  obtain ⟨fme, rfl⟩ : ∃ f : Fields, f.memRow = me := ⟨_, Option.some.inj (decodeRow_encode_of_group hme)⟩
  refine ⟨{ addr := fc.addr, a := fam.a, b := fal.b, s := fw.s, ens := fw.ens, ms := fme.ms, rdwr := fme.rdwr,
            marld := fml.marld, mbrf := fx.mbrf, sh := fsh.sh, alu := fal.alu, cond := fc.cond, amux := fam.amux }, ?_⟩
  rw [← marldRow_of_busBAgrees hb]
  rfl

/-- A well-formed list is HALT alone, or the eight rows of a field tuple other than the halt sentinel's (R93, R101). -/
theorem rowsWellFormed_cases {rows : List Instr} (h : rowsWellFormed rows = true) :
    rows = [.halt] ∨ ∃ f : Fields, f ≠ Fields.blank ∧ rows = f.rows := by
  unfold rowsWellFormed at h
  split at h
  · exact .inl (by rw [beq_iff_eq.mp h])
  · simp only [Bool.and_eq_true, beq_iff_eq, bne_iff_ne] at h
    obtain ⟨⟨⟨⟨⟨⟨⟨⟨⟨hx, ham⟩, hml⟩, hal⟩, hsh⟩, hc⟩, hw⟩, hme⟩, hb⟩, hne⟩ := h
    obtain ⟨f, hf⟩ := exists_rows_eq hx ham hml hal hsh hc hw hme hb
    exact .inr ⟨f, fun e => hne (by rw [← hf, e]; rfl), hf.symm⟩
  · cases h

theorem decodeRows_encodeFields {f : Fields} (h : f ≠ Fields.blank) : decodeRows (encodeFields f) = f.rows := by
  rw [decodeRows, if_neg (mt (encodeFields_eq_zero_iff f).mp h), decodeFields_encodeFields]

/-- Settles O2: a well-formed list is HALT or a tuple's rows, whose word is the tuple's word. -/
theorem assembledRowsDecodeToThemselves : Obligations.AssembledRowsDecodeToThemselves := by
  intro rows h
  rcases rowsWellFormed_cases h with rfl | ⟨f, hf, rfl⟩
  · rfl
  · rw [assemble_rows, decodeRows_encodeFields hf]

/-- Settles O3: a nonzero word is the word of its own fields, which are not the halt sentinel's. -/
theorem everyWordSelectsWellFormedRows : Obligations.EveryWordSelectsWellFormedRows := by
  intro w
  by_cases hw : w = 0
  · subst hw
    decide
  · have hf : decodeFields w ≠ Fields.blank := mt (decodeFields_eq_blank_iff w).mp hw
    rw [decodeRows, if_neg hw, assemble_rows, encodeFields_decodeFields]
    exact ⟨rowsWellFormed_rows hf, rfl⟩

/-! ## The table's masks -/

/-- The mask a word is read under in one group: only MEM, where `RDWR` counts when MS = 1, has two (R101). -/
def tableMask (g : Group) (w : Word32) : Word32 :=
  match g with
  | .halt => 0xFFFFFFFF
  | .alu => 0x18000000
  | .sh => 0x06000000
  | .cond => 0x60000000
  | .amux => 0x80000000
  | .marld => 0x00800000
  | .wb => 0x00100000
  | .mem => if (decodeFields w).ms then 0x00600000 else 0x00200000
  | .mbrf => 0x01000000

/-- The mask of the two memory bits together. -/
theorem and_memMask (w : Word32) :
    w &&& (0x00600000 : Word32) =
      (BitVec.ofBool (decodeFields w).ms).setWidth 32 <<< 21
        ||| (BitVec.ofBool (decodeFields w).rdwr).setWidth 32 <<< 22 := by
  rw [← and_msMask, ← and_rdwrMask, ← BitVec.and_or_distrib_left]
  rfl

/-- A row that matches a word is read under the mask of its group. -/
theorem opMask_of_matchesWord {i : Instr} {w : Word32} (h : i.matchesWord w = true) :
    i.opMask = tableMask i.group w := by
  have hw : w &&& i.opMask = i.opMatch := beq_iff_eq.mp h
  cases i
  case memNone rdwr =>
    change w &&& 0x00200000 = 0 at hw
    rw [and_msMask] at hw
    cases hms : (decodeFields w).ms
    · simp [tableMask, Instr.group, Instr.opMask, hms]
    · rw [hms] at hw
      exact absurd hw (by decide)
  case memWr =>
    change w &&& 0x00600000 = 0x00200000 at hw
    rw [and_memMask] at hw
    cases hms : (decodeFields w).ms
    · rw [hms] at hw
      exact absurd hw (by cases (decodeFields w).rdwr <;> decide)
    · simp [tableMask, Instr.group, Instr.opMask, hms]
  case memRd =>
    change w &&& 0x00600000 = 0x00600000 at hw
    rw [and_memMask] at hw
    cases hms : (decodeFields w).ms
    · rw [hms] at hw
      exact absurd hw (by cases (decodeFields w).rdwr <;> decide)
    · simp [tableMask, Instr.group, Instr.opMask, hms]
  all_goals rfl

/-- Two rows of one group that match one word are the same row of the table, up to their operands. -/
theorem row_unique {i j : Instr} {w : Word32} (hg : j.group = i.group) (hi : i.matchesWord w = true)
    (hj : j.matchesWord w = true) : j.opMatch = i.opMatch ∧ j.opMask = i.opMask := by
  have hm : j.opMask = i.opMask := by rw [opMask_of_matchesWord hi, opMask_of_matchesWord hj, hg]
  refine ⟨?_, hm⟩
  rw [← beq_iff_eq.mp hi, ← beq_iff_eq.mp hj, hm]

/-- The decoder's row of a group belongs to it. -/
theorem group_of_decodeRow {g : Group} {w : Word32} {i : Instr} (h : decodeRow g w = some i) : i.group = g := by
  obtain ⟨hmbrf, hamux, hmarld, halu, hsh, hcond, hwb, hmem⟩ := rows_groups (decodeFields w)
  cases g
  case halt =>
    simp only [decodeRow] at h
    split at h <;> cases h
    rfl
  all_goals
    cases h
    assumption

section
variable (w : Word32)

theorem matchesWord_aluRow : (decodeFields w).aluRow.matchesWord w = true := by
  have hw := and_aluMask w
  unfold Fields.aluRow
  cases h : (decodeFields w).alu <;> rw [h] at hw <;> exact beq_iff_eq.mpr hw

theorem matchesWord_shRow : (decodeFields w).shRow.matchesWord w = true := by
  have hw := and_shMask w
  unfold Fields.shRow
  cases h : (decodeFields w).sh <;> rw [h] at hw <;> exact beq_iff_eq.mpr hw

theorem matchesWord_condRow : (decodeFields w).condRow.matchesWord w = true := by
  have hw := and_condMask w
  unfold Fields.condRow
  cases h : (decodeFields w).cond <;> rw [h] at hw <;> exact beq_iff_eq.mpr hw

theorem matchesWord_amuxRow : (decodeFields w).amuxRow.matchesWord w = true := by
  have hw := and_amuxMask w
  unfold Fields.amuxRow
  cases h : (decodeFields w).amux <;> rw [h] at hw <;> exact beq_iff_eq.mpr hw

theorem matchesWord_marldRow : (decodeFields w).marldRow.matchesWord w = true := by
  have hw := and_marldMask w
  unfold Fields.marldRow
  cases h : (decodeFields w).marld <;> rw [h] at hw <;> exact beq_iff_eq.mpr hw

theorem matchesWord_wbRow : (decodeFields w).wbRow.matchesWord w = true := by
  have hw := and_ensMask w
  unfold Fields.wbRow
  cases h : (decodeFields w).ens <;> rw [h] at hw <;> exact beq_iff_eq.mpr hw

theorem matchesWord_mbrfRow : (decodeFields w).mbrfRow.matchesWord w = true := by
  have hw := and_mbrfMask w
  unfold Fields.mbrfRow
  cases h : (decodeFields w).mbrf <;> rw [h] at hw <;> exact beq_iff_eq.mpr hw

/-- With MS = 0 the bit of `RDWR` is not looked at. -/
theorem matchesWord_memRow : (decodeFields w).memRow.matchesWord w = true := by
  unfold Fields.memRow
  cases hms : (decodeFields w).ms
  · have hw := and_msMask w
    rw [hms] at hw
    exact beq_iff_eq.mpr hw
  · have hw := and_memMask w
    rw [hms] at hw
    cases h : (decodeFields w).rdwr <;> rw [h] at hw <;> exact beq_iff_eq.mpr hw

end

/-- The decoder has a row for every group, HALT only for the zero word (R92, R93). -/
theorem exists_decodeRow (w : Word32) {g : Group} (hg : g ≠ .halt) : ∃ i, decodeRow g w = some i := by
  cases g
  case halt => exact absurd rfl hg
  all_goals exact ⟨_, rfl⟩

/-- The decoder's row of a group matches the word. -/
theorem matchesWord_of_decodeRow {g : Group} {w : Word32} {i : Instr} (hg : g ≠ .halt) (h : decodeRow g w = some i) :
    i.matchesWord w = true := by
  cases g
  case halt => exact absurd rfl hg
  case alu => exact Option.some.inj h ▸ matchesWord_aluRow w
  case sh => exact Option.some.inj h ▸ matchesWord_shRow w
  case cond => exact Option.some.inj h ▸ matchesWord_condRow w
  case amux => exact Option.some.inj h ▸ matchesWord_amuxRow w
  case marld => exact Option.some.inj h ▸ matchesWord_marldRow w
  case wb => exact Option.some.inj h ▸ matchesWord_wbRow w
  case mem => exact Option.some.inj h ▸ matchesWord_memRow w
  case mbrf => exact Option.some.inj h ▸ matchesWord_mbrfRow w

theorem decodeRow_halt_iff (w : Word32) : decodeRow .halt w = some .halt ↔ w = 0 := by
  simp [decodeRow]

/-- Settles O4: the decoder's row matches, and two rows of one group that match are read under one mask. -/
theorem decodedRowsAreTheTablesRows : Obligations.DecodedRowsAreTheTablesRows := by
  refine ⟨decodeRow_halt_iff, fun w g _ hg => ?_⟩
  obtain ⟨i, hi⟩ := exists_decodeRow w hg
  have hgroup : i.group = g := group_of_decodeRow hi
  have hmatch : i.matchesWord w = true := matchesWord_of_decodeRow hg hi
  exact ⟨i, hi, hgroup, hmatch, fun j hj hjm => row_unique (hj.trans hgroup.symm) hmatch hjm⟩

end Sys2Proof

/-! SUPPORT. Which fields of a word its outcome depends on, when it is fatal, and the rows its step runs
(spec/30_encoding.md R94 to R96, R101; spec/40_step_sequence.md R110). -/

namespace Sys2Proof.Machine

/-! ## What a word's outcome depends on -/

/-- A word acts through ENS, S, the state after its first ten steps and its memory stage, and through nothing else. -/
theorem executeFields_congr {f g : Fields} {s : State} (hens : g.ens = f.ens) (hs : g.s = f.s)
    (hten : afterTen g s = afterTen f s) (hmem : ∀ t, memStage g t = memStage f t) :
    executeFields g s = executeFields f s := by
  rw [executeFields_eq, executeFields_eq f, hens, hs, hten]
  simp only [hmem]
  rfl

section
variable {f : Fields} {s : State}

theorem executeFields_mbrf (f : Fields) (x : Bool) (s : State) :
    executeFields { f with mbrf := x } s = executeFields f s :=
  executeFields_congr rfl rfl rfl fun _ => rfl

theorem executeFields_sh_spare (f : Fields) (s : State) :
    executeFields { f with sh := .spare } s = executeFields { f with sh := .noOp } s :=
  executeFields_congr rfl rfl rfl fun _ => rfl

/-- ADDR is used only by a taken branch. -/
theorem executeFields_addr (x : Word8) (h : branches f s = false) :
    executeFields { f with addr := x } s = executeFields f s := by
  rw [branches_eq] at h
  have htakes : takes { f with addr := x } s = false := h
  refine executeFields_congr rfl rfl ?_ fun _ => rfl
  unfold afterTen
  rw [h, htakes]
  rfl

/-- A is not read when AMUX selects MAR. -/
theorem executeFields_a (x : Reg) (h : f.amux = true) : executeFields { f with a := x } s = executeFields f s := by
  obtain ⟨addr, a, b, d, ens, ms, rdwr, marld, mbrf, sh, alu, cond, amux⟩ := f
  obtain rfl : amux = true := h
  exact executeFields_congr rfl rfl rfl fun _ => rfl

/-- B is read by the MAR load and by the two-operand modes of the ALU only. -/
theorem executeFields_b (x : Reg) (hm : f.marld = false) (ha : f.alu = .noOp ∨ f.alu = .bitNot) :
    executeFields { f with b := x } s = executeFields f s := by
  obtain ⟨addr, a, b, d, ens, ms, rdwr, marld, mbrf, sh, alu, cond, amux⟩ := f
  obtain rfl : marld = false := hm
  rcases ha with rfl | rfl
  · exact executeFields_congr rfl rfl rfl fun _ => rfl
  · exact executeFields_congr rfl rfl rfl fun _ => rfl

/-- RDWR is read only when MS = 1. -/
theorem executeFields_rdwr (x : Bool) (h : f.ms = false) :
    executeFields { f with rdwr := x } s = executeFields f s := by
  refine executeFields_congr rfl rfl rfl fun t => ?_
  have hx : memStage { f with rdwr := x } t = t := if_neg (by simp [h])
  rw [hx, memStage, if_neg (by simp [h])]

theorem afterWriteBack_of_not_writesBack (h : writesBack f s = false) : afterWriteBack f s = afterTen f s := by
  rw [writesBack] at h
  rw [afterWriteBack, h]
  rfl

/-- S is neither checked nor written when ENS = 0 under `gated` (R162). -/
theorem executeFields_s (x : Reg) (he : f.ens = false) (hp : s.cfg.wbPolicy = .gated) :
    executeFields { f with s := x } s = executeFields f s := by
  have hno : writesBack f s = false := by rw [writesBack, he, hp]; rfl
  have hno' : writesBack { f with s := x } s = false := hno
  rw [executeFields_next f s (by simp [he, hp]), executeFields_next { f with s := x } s (by simp [he, hp]),
    afterWriteBack_of_not_writesBack hno, afterWriteBack_of_not_writesBack hno']
  rfl

end

/-- Settles O53: one lemma for each ignored field. -/
theorem ignoredFieldsChangeNothing : Obligations.IgnoredFieldsChangeNothing :=
  fun f s => ⟨fun x h => executeFields_addr x h, fun x h => executeFields_a x h,
    fun x hm ha => executeFields_b x hm ha, fun x he hp => executeFields_s x he hp,
    fun x h => executeFields_rdwr x h, fun x => executeFields_mbrf f x s⟩

/-! ## The two ways into MBR -/

/-- A completed word changes MBR only by its write-back or by a completed read (R94). -/
theorem executeFields_mbr_unchanged {f : Fields} {s t : State} (h : executeFields f s = .next t)
    (hwb : ¬(writesBack f s = true ∧ f.s = .mbr)) (hrd : ¬completesRead f s = true) : t.reg .mbr = s.reg .mbr := by
  rcases executeFields_cases f s with ⟨_, _, e⟩ | ⟨_, _, _, e⟩ | ⟨_, e⟩ <;> rw [h] at e <;> cases e
  have hwrite : (afterWriteBack f s).reg .mbr = s.reg .mbr := by
    rw [afterWriteBack_reg, if_neg fun ⟨hw, hs, _⟩ => hwb ⟨hw, hs.symm⟩, if_neg (by simp)]
  rw [endStep_reg, memStage_reg, if_neg ?_, hwrite]
  rintro ⟨hms, hrdwr, harmed, _⟩
  rw [afterWriteBack_armed] at harmed
  exact hrd (by rw [completesRead, hms, hrdwr, harmed]; rfl)

/-- Settles O42: the reserved encodings through `executeFields_congr`, the ways into MBR by contraposition. -/
theorem reservedEncodingsHaveNoEffect : Obligations.ReservedEncodingsHaveNoEffect := by
  refine ⟨fun s => ⟨rfl, rfl⟩, executeFields_mbrf, by decide, executeFields_sh_spare, fun f s t h hne => ?_⟩
  by_contra hno
  rw [not_or] at hno
  exact hne (executeFields_mbr_unchanged h hno.1 hno.2)

/-! ## Fatal words -/

/-- The masks of R96 read the five bits of ENS and S alone. -/
theorem fatalMasks_eq (v : BitVec 5) :
    (v.setWidth 32 <<< 16 &&& (0x001E0000 : Word32) == 0x00100000 || v.setWidth 32 <<< 16 == (0x00120000 : Word32))
      = (v.getLsbD 4 && decide ((v.setWidth 4).toNat < 3)) := by
  revert v
  decide

theorem readOnly_decodeFields_s (w : Word32) :
    readOnly (decodeFields w).s = decide (w.toNat / 65536 % 16 < 3) := by
  rw [readOnly_iff_index, decodeFields, toBits_ofBits, toNat_bitGetMany]
  rfl

/-- The masks of R96 say what R160 and R163 do: a write to a constant slot, made by ENS or by the policy. -/
theorem fatalWord_eq (policy : WbPolicy) (w : Word32) :
    fatalWord policy w =
      (w != 0 && (((decodeFields w).ens || policy == .unconditional) && readOnly (decodeFields w).s)) := by
  have hfive : w &&& (0x001F0000 : Word32) = (w.extractLsb' 16 5).setWidth 32 <<< 16 := and_fieldMask w 16 5
  have hfour : w &&& (0x001E0000 : Word32) = (w &&& (0x001F0000 : Word32)) &&& (0x001E0000 : Word32) := by
    rw [BitVec.and_assoc]
    rfl
  have hens : (w.extractLsb' 16 5).getLsbD 4 = (decodeFields w).ens := by
    simp [decodeFields, bitGet]
  have hs : ((w.extractLsb' 16 5).setWidth 4).toNat = w.toNat / 65536 % 16 := by
    rw [BitVec.toNat_setWidth, BitVec.extractLsb'_toNat, Nat.shiftRight_eq_div_pow]
    omega
  rw [fatalWord, hfour, hfive, fatalMasks_eq, hens, hs, ← readOnly_decodeFields_s, ← Bool.and_or_distrib_right]

/-! ## The step of a fetched word -/

/-- Settles O20: the three ends of a word, told apart by ENS, S and the policy. -/
theorem wordBitsDecideAbortOrCompletion : Obligations.WordBitsDecideAbortOrCompletion := by
  intro s w hrun hfetch
  rw [step_of_fetch hrun hfetch, fatalWord_eq, executeWord]
  by_cases hw : w = 0
  · simp [hw]
  · rw [if_neg hw, bne_iff_ne.mpr hw, Bool.true_and]
    rcases executeFields_cases (decodeFields w) s.beginStep with
      ⟨hens, hro, hend⟩ | ⟨hens, hro, hpol, hend⟩ | ⟨hlawful, hend⟩ <;> rw [hend]
    · refine ⟨fun _ => ⟨_, rfl⟩, ?_⟩
      simp [hens, hro]
    · refine ⟨fun _ => ⟨_, rfl⟩, ?_⟩
      rw [beginStep_cfg] at hpol
      simp [hpol, hro]
    · refine ⟨fun hfatal => ?_, fun _ => ⟨_, rfl⟩⟩
      obtain ⟨hwrites, hro⟩ := Bool.and_eq_true_iff.mp hfatal
      rw [hlawful hwrites] at hro
      cases hro

/-- Settles O17: `executeFields` is the eight rows of `decodeRows` with the check of step 5 among them. -/
theorem stepRunsTheRowsOfTheFetchedWord : Obligations.StepRunsTheRowsOfTheFetchedWord := by
  intro s w hrun hfetch
  rw [step_of_fetch hrun hfetch, executeWord, decodeRows]
  refine ⟨fun hw => ?_, fun hw => ?_⟩
  · rw [if_pos hw, if_pos hw]
    exact ⟨rfl, rfl⟩
  · rw [if_neg hw, if_neg hw]
    exact ⟨_, _, _, _, _, _, _, _, rfl, rfl⟩

end Sys2Proof.Machine

/-! SUPPORT. The state a completed word leaves, in the closed form of the claims, and its parts: the operand-A
multiplexer, the MAR load and the flags (spec/40_step_sequence.md R110, R114, R115, R117, R120). -/

namespace Sys2Proof.Machine

/-! ## The ends of a word, inverted -/

section
variable {f : Fields} {s t : State} {d : Reg}

/-- A word that completes has a lawful write-back, and ends after its memory stage. -/
theorem executeFields_eq_next (h : executeFields f s = .next t) :
    (writesBack f s = true → readOnly f.s = false) ∧ t = (memStage f (afterWriteBack f s)).endStep := by
  rcases executeFields_cases f s with ⟨_, _, e⟩ | ⟨_, _, _, e⟩ | ⟨hlawful, e⟩ <;> rw [h] at e <;> cases e
  exact ⟨hlawful, rfl⟩

/-- A word that aborts leaves what it started from when ENS = 1 (step 5, R160), and what its first ten steps made
when ENS = 0 (step 11, R163). -/
theorem executeFields_eq_fault (h : executeFields f s = .fault (.readOnlyRegisterWrite d t)) :
    t = (if f.ens then s else afterTen f s).abort (.readOnlyRegisterWrite d) := by
  rcases executeFields_cases f s with ⟨hens, _, e⟩ | ⟨hens, _, _, e⟩ | ⟨_, e⟩ <;> rw [h] at e <;> cases e <;>
    rw [hens] <;> rfl

end

/-! ## The closed form of a completed word -/

section
variable {f : Fields} {s : State}

/-- Register by register, the memory stage brings the machine to `finalReg` (R120, R171). -/
theorem memStage_afterWriteBack_reg (h : writesBack f s = true → readOnly f.s = false) (r : Reg) :
    (memStage f (afterWriteBack f s)).reg r = finalReg f s r := by
  rw [memStage_reg, afterWriteBack_armed, memRead, afterWriteBack_mem, ← regAfterWriteBack_eq f s r h,
    ← regAfterWriteBack_eq f s .mar h]
  simp [finalReg, completesRead, transferAddress, and_assoc]

/-- Cell by cell, the memory stage brings the machine to `finalCell` (R120, R172). -/
theorem memStage_afterWriteBack_cell (h : writesBack f s = true → readOnly f.s = false) (a : Nat) :
    Memory.cell (memStage f (afterWriteBack f s)).mem a = finalCell f s a := by
  rw [memStage_cell, afterWriteBack_armed, afterWriteBack_mem, ← regAfterWriteBack_eq f s .mbr h,
    ← regAfterWriteBack_eq f s .mar h]
  simp [finalCell, completesWrite, transferAddress, and_assoc]

theorem finalReg_beginStep (f : Fields) (s : State) (r : Reg) : finalReg f s.beginStep r = finalReg f s r := rfl

theorem finalCell_beginStep (f : Fields) (s : State) (a : Nat) : finalCell f s.beginStep a = finalCell f s a := rfl

/-- A word that is not fatal writes no constant register (R96). -/
theorem readOnly_of_not_fatalWord {w : Word32} (hw : w ≠ 0) (hfatal : fatalWord s.cfg.wbPolicy w = false)
    (hwrites : writesBack (decodeFields w) s = true) : readOnly (decodeFields w).s = false := by
  rw [writesBack] at hwrites
  rwa [fatalWord_eq, bne_iff_ne.mpr hw, hwrites, Bool.true_and, Bool.true_and] at hfatal

end

/-- Settles O48: the word runs to its end, and each part of the state it leaves is the closed form's. -/
theorem wordCompletesWithItsFinalState : Obligations.WordCompletesWithItsFinalState := by
  intro s w hx hfatal
  have ⟨hrun, _, hw⟩ := hx
  have hlawful : writesBack (decodeFields w) s.beginStep = true → readOnly (decodeFields w).s = false :=
    readOnly_of_not_fatalWord hw hfatal
  have hstep : step s = .next (memStage (decodeFields w) (afterWriteBack (decodeFields w) s.beginStep)).endStep :=
    (step_of_executes hx).trans (executeFields_next _ _ hlawful)
  refine ⟨_, hstep, fun r => ?reg, fun a => ?cell, step_pc_of_executes hx hstep, ?negative, ?zero, ?armed, ?status,
    ?cfg, endStep_datapath _⟩
  case reg => rw [endStep_reg, memStage_afterWriteBack_reg hlawful, finalReg_beginStep]
  case cell => rw [endStep_mem, memStage_afterWriteBack_cell hlawful, finalCell_beginStep]
  case negative => simp [wordResult_eq, negativeOf_eq]
  case zero => simp [wordResult_eq, zeroOf_eq]
  case armed => simp [memStage_armed]
  case status => simpa using hrun
  case cfg => simp

/-! ## The operand-A multiplexer -/

/-- AMUX = 1 is AMUX = 0 with A = 3 in every word: both select MAR, and nothing else looks at either field (R114). -/
theorem executeFields_amux (f : Fields) (s : State) :
    executeFields { f with amux := true } s = executeFields { f with amux := false, a := .mar } s :=
  executeFields_congr rfl rfl rfl fun _ => rfl

/-- Operand A is read from the register file as it stands at step 7, not as it stood when AMUX selected it (R116). -/
theorem operandA_setReg_mar_of_selectA (s : State) (v : Word16) : operandA ((selectA .mar s).setReg .mar v) = v :=
  reg_setReg_self (selectA .mar s) .mar v readOnly_mar

/-- Settles O35: both rows by their definition, the later read by `operandA_setReg_mar_of_selectA`. -/
theorem amuxSelectsOperandA : Obligations.AmuxSelectsOperandA := by
  refine ⟨fun a s => ⟨rfl, rfl, rfl, rfl, rfl, rfl⟩, fun a s t v h => ?_, executeFields_amux⟩
  cases h
  exact operandA_setReg_mar_of_selectA s v

/-! ## The MAR load -/

theorem exec_marldOn (b : Reg) (s : State) : exec (.marldOn b) s = .next (s.setReg .mar (s.reg b)) := rfl

/-- Writing back what a register reads changes nothing. -/
theorem setReg_reg_self (s : State) (r : Reg) : s.setReg r (s.reg r) = s := by
  cases r <;> rfl

/-- MAR after a word that loads it: register `B`, unless the write-back names MAR (R115). -/
theorem finalReg_mar_of_marld {f : Fields} (s : State) (h : f.marld = true) :
    finalReg f s .mar = if writesBack f s = true ∧ f.s = .mar then wordShifted f s else s.reg f.b := by
  simp [finalReg, regAfterWriteBack, regAfterLoad, h, eq_comm (a := Reg.mar)]

/-- Settles O36: the row is a write to MAR; a whole word by `finalReg`; an abort at step 5 by its inversion. -/
theorem marLoadCopiesRegisterB : Obligations.MarLoadCopiesRegisterB := by
  refine ⟨fun s => ⟨rfl, rfl, rfl⟩, fun b s => ⟨rfl, rfl, _, exec_marldOn b s, reg_setReg_self s .mar _ readOnly_mar,
    fun r hr => reg_setReg_of_ne s .mar r _ hr, rfl, fun hb => hb ▸ setReg_reg_self s .mar⟩, fun f s t hm h => ?_,
    fun f s left d _ hens h => ?_⟩
  · obtain ⟨hlawful, rfl⟩ := executeFields_eq_next h
    rw [endStep_reg, memStage_afterWriteBack_reg hlawful, finalReg_mar_of_marld s hm]
  · rw [executeFields_eq_fault h, if_pos hens, abort_reg]

/-! ## The flags -/

/-- A completed step on a nonzero word leaves the flags of its ALU result (R117). -/
theorem step_flags_of_next {s t : State} {w : Word32} (hx : Executes s w) (h : step s = .next t) :
    t.negative = negativeOf (wordResult (decodeFields w) s) ∧ t.zero = zeroOf (wordResult (decodeFields w) s) := by
  rw [step_of_executes hx] at h
  obtain ⟨_, rfl⟩ := executeFields_eq_next h
  simp [wordResult_eq]

/-- An abort at step 11 comes after step 8, and leaves the flags it set (R117, R163). -/
theorem step_flags_of_fault {s t : State} {w : Word32} {d : Reg} (hx : Executes s w)
    (hens : (decodeFields w).ens = false) (h : step s = .fault (.readOnlyRegisterWrite d t)) :
    t.negative = negativeOf (wordResult (decodeFields w) s) ∧ t.zero = zeroOf (wordResult (decodeFields w) s) := by
  rw [step_of_executes hx] at h
  rw [executeFields_eq_fault h, if_neg (by simp [hens])]
  simp [wordResult_eq, afterTen]

/-- Settles O50: either end leaves the flags of one ALU result, which is not both negative and zero. -/
theorem flagsComeFromTheAluResult : Obligations.FlagsComeFromTheAluResult := by
  intro s t w d hx h
  obtain ⟨hn, hz⟩ : t.negative = negativeOf (wordResult (decodeFields w) s)
      ∧ t.zero = zeroOf (wordResult (decodeFields w) s) := by
    rcases h with h | ⟨hens, h⟩
    · exact step_flags_of_next hx h
    · exact step_flags_of_fault hx hens h
  rw [hn, hz]
  exact ⟨rfl, rfl, not_negative_and_zero _⟩

end Sys2Proof.Machine

/-! SUPPORT. The ALU rows: what each one computes, and the flags it leaves (spec/41_alu.md R130 to R134;
spec/40_step_sequence.md R117). -/

namespace Sys2Proof.Machine

/-! ## The end every ALU row has in common -/

/-- The result goes to the datapath and to the two flags, which are its bit 15 and whether it is zero; the rest of
the state stays (R117, R130). -/
theorem aluFinish_eq (r : Word16) (s : State) :
    aluFinish r s =
      { s with datapath := { s.datapath with result := r }
               negative := r.getLsbD 15, zero := decide (r.toNat = 0) } := by
  rw [aluFinish, setFlags, zeroOf_eq, negativeOf]

/-! ## The four rows -/

section
variable (b : Reg) (s : State)

theorem exec_aluPass : exec (.aluPass b) s = .next (aluFinish (s.reg s.datapath.operandA) s) := rfl

theorem exec_aluAdd : exec (.aluAdd b) s = .next (aluFinish (s.reg s.datapath.operandA + s.reg b) s) := rfl

theorem exec_aluAnd : exec (.aluAnd b) s = .next (aluFinish (s.reg s.datapath.operandA &&& s.reg b) s) := rfl

/-- `b` is read and not used (R134). -/
theorem exec_aluNot : exec (.aluNot b) s = .next (aluFinish (~~~(s.reg s.datapath.operandA)) s) := rfl

end

/-! ## The complement as a signed number -/

/-- The complement turns the sign bit over, so there is one case for each sign (R134). -/
theorem toInt_complement (a : Word16) : (~~~a).toInt = -a.toInt - 1 := by
  have hlt := a.isLt
  have hsign : (~~~a).msb = !a.msb := by simp
  rw [BitVec.toInt_eq_msb_cond, BitVec.toInt_eq_msb_cond, hsign, BitVec.toNat_not]
  cases a.msb
  case false =>
    rw [Bool.not_false, if_pos rfl, if_neg Bool.false_ne_true]
    omega
  case true =>
    rw [Bool.not_true, if_neg Bool.false_ne_true, if_pos rfl]
    omega

/-! ## The obligations -/

/-- Settles O23: the row passes operand A to `aluFinish`. -/
theorem aluPassGivesOperandA : Obligations.AluPassGivesOperandA :=
  fun b s => ⟨rfl, rfl, _, rfl, by rw [exec_aluPass, aluFinish_eq]⟩

/-- Settles O24: the sum of two words is their sum as numbers modulo 65536. -/
theorem aluAddWraps : Obligations.AluAddWraps :=
  fun b s => ⟨rfl, rfl, _, BitVec.toNat_add _ _, by rw [exec_aluAdd, aluFinish_eq]⟩

/-- Settles O25: the bits of the and of two words are the ands of their bits. -/
theorem aluAndIsBitwise : Obligations.AluAndIsBitwise :=
  fun b s => ⟨rfl, rfl, _, fun _ => BitVec.getLsbD_and, by rw [exec_aluAnd, aluFinish_eq]⟩

/-- Settles O26: xor with all ones is the complement, and the complement as a signed number is `-a - 1`. -/
theorem aluNotComplementsOperandA : Obligations.AluNotComplementsOperandA :=
  fun b s => ⟨rfl, rfl, _, BitVec.xor_allOnes.symm, toInt_complement _, by rw [exec_aluNot, aluFinish_eq]⟩

end Sys2Proof.Machine

/-! SUPPORT. The shifter rows: the value each one puts in the datapath, read as a number and bit by bit
(spec/42_shifter.md R140 to R144). -/

namespace Sys2Proof.Machine

/-! ## The four rows -/

section
variable (s : State)

theorem exec_shNone : exec .shNone s = .next (setShifted s.datapath.result s) := rfl

theorem exec_shLsh : exec .shLsh s = .next (setShifted (s.datapath.result <<< 1) s) := rfl

theorem exec_shRsh : exec .shRsh s = .next (setShifted (s.datapath.result.sshiftRight 1) s) := rfl

/-- The spare encoding is not reserved: it acts as no shift (R144). -/
theorem exec_shSpare3 : exec .shSpare3 s = exec .shNone s := rfl

end

/-! ## One place to the left -/

section
variable (x : Word16)

/-- The bit shifted out of bit 15 is what the reduction modulo 65536 drops (R142). -/
theorem toNat_shiftLeft_one : (x <<< 1).toNat = 2 * x.toNat % 65536 := by
  rw [BitVec.toNat_shiftLeft, Nat.shiftLeft_eq, pow_one, Nat.mul_comm]

theorem getLsbD_zero_shiftLeft_one : (x <<< 1).getLsbD 0 = false := by
  rw [BitVec.getLsbD_shiftLeft]
  rfl

theorem getLsbD_succ_shiftLeft_one {i : Nat} (h : i < 15) : (x <<< 1).getLsbD (i + 1) = x.getLsbD i := by
  have hi : i + 1 < 16 := by omega
  have hlow : ¬ i + 1 < 1 := by omega
  rw [BitVec.getLsbD_shiftLeft, decide_eq_true hi, decide_eq_false hlow, Nat.add_sub_cancel]
  rfl

/-! ## One place to the right -/

/-- The division of `Int` by 2 rounds toward minus infinity (R143). -/
theorem toInt_sshiftRight_one : (x.sshiftRight 1).toInt = x.toInt / 2 := by
  rw [BitVec.toInt_sshiftRight, Int.shiftRight_eq_div_pow, pow_one, Nat.cast_ofNat]

theorem getLsbD_fifteen_sshiftRight_one : (x.sshiftRight 1).getLsbD 15 = x.getLsbD 15 := by
  rw [BitVec.getLsbD_sshiftRight, BitVec.msb_eq_getLsbD_last]
  rfl

theorem getLsbD_sshiftRight_one {i : Nat} (h : i < 15) : (x.sshiftRight 1).getLsbD i = x.getLsbD (i + 1) := by
  have hi : 1 + i < 16 := by omega
  have hw : ¬ 16 ≤ i := by omega
  rw [BitVec.getLsbD_sshiftRight, decide_eq_false hw, if_pos hi, Bool.not_false, Bool.true_and, Nat.add_comm]

end

/-! ## The obligations -/

/-- Settles O27: the row latches the ALU result. -/
theorem shiftNoneGivesTheResult : Obligations.ShiftNoneGivesTheResult :=
  fun s => ⟨rfl, rfl, exec_shNone s⟩

/-- Settles O28: the left shift as a number and bit by bit. -/
theorem shiftLeftDoubles : Obligations.ShiftLeftDoubles :=
  fun s => ⟨rfl, rfl, _, toNat_shiftLeft_one _, getLsbD_zero_shiftLeft_one _,
    fun _ => getLsbD_succ_shiftLeft_one _, exec_shLsh s⟩

/-- Settles O29: the arithmetic right shift as a signed number and bit by bit. -/
theorem shiftRightHalvesWithSign : Obligations.ShiftRightHalvesWithSign :=
  fun s => ⟨rfl, rfl, _, toInt_sshiftRight_one _, getLsbD_fifteen_sshiftRight_one _,
    fun _ => getLsbD_sshiftRight_one _, exec_shRsh s⟩

/-- Settles O30: the spare row is SH.NONE, which latches the ALU result. -/
theorem shiftSpareActsAsNone : Obligations.ShiftSpareActsAsNone :=
  fun s => ⟨rfl, rfl, (exec_shSpare3 s).trans (exec_shNone s), exec_shSpare3 s⟩

end Sys2Proof.Machine

/-! SUPPORT. The condition rows: when each one writes the program counter, and where step 13 takes it from there
(spec/43_branch.md R150 to R154; spec/40_step_sequence.md R119). -/

namespace Sys2Proof.Machine

/-! ## The program counter -/

/-- Step 13 in unsigned arithmetic: the increment wraps after 255 (R119). -/
theorem endStep_pc_toNat (s : State) : s.endStep.pc.toNat = (s.pc.toNat + 1) % 256 :=
  BitVec.toNat_add _ _

/-- A jump, taken or not, decides the program counter alone (R150). -/
theorem ite_setPc_eq (taken : Bool) (addr : Word8) (s : State) :
    (if taken = true then s.setPc addr else s) = { s with pc := if taken = true then addr else s.pc } := by
  cases taken with
  | false => rfl
  | true => rfl

/-! ## The four rows -/

section
variable (addr : Word8) (s : State)

theorem exec_condNone : exec (.condNone addr) s = .next s := rfl

theorem exec_condJn : exec (.condJn addr) s = .next (if s.negative = true then s.setPc addr else s) := rfl

theorem exec_condJz : exec (.condJz addr) s = .next (if s.zero = true then s.setPc addr else s) := rfl

theorem exec_condGoto : exec (.condGoto addr) s = .next (s.setPc addr) := rfl

end

/-! ## The obligations -/

/-- Settles O31: the row does nothing, so only step 13 moves the program counter. -/
theorem condNoneLeavesPc : Obligations.CondNoneLeavesPc :=
  fun addr s => ⟨rfl, rfl, exec_condNone addr s, endStep_pc_toNat s⟩

/-- Settles O32: the jump under N, taken or not. -/
theorem condNegativeBranches : Obligations.CondNegativeBranches :=
  fun addr s => ⟨rfl, rfl, by rw [exec_condJn, ite_setPc_eq]⟩

/-- Settles O33: the jump under Z, taken or not. -/
theorem condZeroBranches : Obligations.CondZeroBranches :=
  fun addr s => ⟨rfl, rfl, by rw [exec_condJz, ite_setPc_eq]⟩

/-- Settles O34: the row writes `ADDR`, and step 13 increments it. -/
theorem condGotoBranches : Obligations.CondGotoBranches :=
  fun addr s => ⟨rfl, rfl, s.setPc addr, exec_condGoto addr s, rfl, endStep_pc_toNat (s.setPc addr)⟩

end Sys2Proof.Machine

/-! SUPPORT. The two aborts of a write to a constant register, and what a completed write-back leaves in its
destination (spec/44_writeback.md R160 to R163). -/

namespace Sys2Proof.Machine

/-! ## The two aborts -/

section
variable {s : State} {w : Word32}

/-- An abort at step 5 comes right after the flag reset of step 1 (R160). -/
theorem step_abort_five (hx : Executes s w) (hens : (decodeFields w).ens = true)
    (hro : readOnly (decodeFields w).s = true) : step s = raiseReadOnly (decodeFields w).s s.beginStep :=
  (step_of_executes hx).trans (executeFields_abort_five _ _ hens hro)

/-- An abort at step 11 comes after steps 1 to 10 (R163). -/
theorem step_abort_eleven (hx : Executes s w) (hpol : s.cfg.wbPolicy = .unconditional)
    (hens : (decodeFields w).ens = false) (hro : readOnly (decodeFields w).s = true) :
    step s = raiseReadOnly (decodeFields w).s (afterTen (decodeFields w) s.beginStep) :=
  (step_of_executes hx).trans (executeFields_abort_eleven _ _ hens hro hpol)

end

theorem readOnly_of_index_lt {r : Reg} (h : r.toBits.toNat < 3) : readOnly r = true := by
  rw [readOnly_iff_index, decide_eq_true h]

theorem not_readOnly_of_le_index {r : Reg} (h : 3 ≤ r.toBits.toNat) : readOnly r = false := by
  rw [readOnly_iff_index, decide_eq_false (Nat.not_lt.mpr h)]

/-! ## The destination of a completed word -/

section
variable {f : Fields} {s : State}

/-- A completed read has the last word in MBR (R171). -/
theorem finalReg_mbr_of_completesRead (h : completesRead f s = true) :
    finalReg f s .mbr = Memory.cell s.mem (transferAddress f s) := by
  simp [finalReg, h]

/-- The destination of a write-back ends with the shifted value, unless a completed read overwrites it (R161). -/
theorem finalReg_destination (hw : writesBack f s = true) (h : f.s ≠ .mbr ∨ completesRead f s = false) :
    finalReg f s f.s = wordShifted f s := by
  have hread : ¬(completesRead f s && f.s == .mbr) = true := by
    rcases h with h | h <;> simp [h]
  rw [finalReg, if_neg hread, regAfterWriteBack, hw, beq_self_eq_true]
  rfl

end

theorem writesBack_of_unconditional (f : Fields) {s : State} (h : s.cfg.wbPolicy = .unconditional) :
    writesBack f s = true := by
  simp [writesBack, h]

theorem fatalWord_of_writable (policy : WbPolicy) {w : Word32} (h : readOnly (decodeFields w).s = false) :
    fatalWord policy w = false := by
  simp [fatalWord_eq, h]

/-! ## The state after ten steps -/

theorem afterTen_beginStep_reg (f : Fields) (s : State) (r : Reg) :
    (afterTen f s.beginStep).reg r = regAfterLoad f s r := by
  rw [afterTen_reg, regAfterLoad_eq, loadMar_reg, beginStep_reg, beginStep_reg]

theorem afterTen_beginStep_pc (f : Fields) (s : State) :
    (afterTen f s.beginStep).pc = if branches f s = true then f.addr else s.pc := by
  rw [branches_eq, ← takes_beginStep]
  rfl

/-! ## The obligations -/

/-- Settles O51: the machine left is `beginStep` aborted. -/
theorem readOnlyDestinationAbortsAtStepFive : Obligations.ReadOnlyDestinationAbortsAtStepFive :=
  fun _ _ hx hens hs => step_abort_five hx hens (readOnly_of_index_lt hs)

/-- Settles O52: a writable destination by the closed form of a completed word, a constant one by the two aborts. -/
theorem unconditionalPolicyWritesOrAborts : Obligations.UnconditionalPolicyWritesOrAborts := by
  intro s w hx hpol
  refine ⟨fun hs => ?_, fun hs hens => ?_, fun hs hens => ?_⟩
  · obtain ⟨t, hstep, hreg, _⟩ :=
      wordCompletesWithItsFinalState s w hx (fatalWord_of_writable _ (not_readOnly_of_le_index hs))
    refine ⟨t, hstep, fun _ hread => ?_, fun hdest => ?_⟩
    · rw [hreg, finalReg_mbr_of_completesRead hread]
    · rw [hreg, finalReg_destination (writesBack_of_unconditional _ hpol) hdest]
  · refine ⟨_, step_abort_five hx hens (readOnly_of_index_lt hs), rfl, rfl, fun r => ?_, rfl, rfl, rfl⟩
    rw [abort_reg, beginStep_reg]
  · have hstep := step_abort_eleven hx hpol hens (readOnly_of_index_lt hs)
    obtain ⟨hnegative, hzero⟩ := step_flags_of_fault hx hens hstep
    refine ⟨_, hstep, fun r => ?_, hnegative, hzero, afterTen_beginStep_pc _ s, rfl, rfl⟩
    rw [abort_reg, afterTen_beginStep_reg]

end Sys2Proof.Machine

/-! SUPPORT. The memory rows: the one invocation of the memory unit each makes, or none, and what its two phases leave
(spec/45_memory_ops.md R170 to R172). -/

namespace Sys2Proof.Machine

section
variable {s : State}

/-! ## The invocation each row makes -/

theorem exec_memNone (rdwr : Bool) (s : State) : exec (.memNone rdwr) s = .next s := rfl

/-- An invocation that gives no value leaves MBR alone (R171). -/
theorem exec_memRd_of_muRead_none {t : State} (h : muRead (s.reg .mar) s = (none, t)) : exec .memRd s = .next t := by
  change execMemRd s = _
  rw [execMemRd, memAddress, h]

/-- The value an invocation gives goes to MBR, which is writable (R171). -/
theorem exec_memRd_of_muRead_some {t : State} {v : Word16} (h : muRead (s.reg .mar) s = (some v, t)) :
    exec .memRd s = .next (t.setReg .mbr v) := by
  change execMemRd s = _
  rw [execMemRd, memAddress, h]
  exact writeReg_of_writable readOnly_mbr v t

theorem exec_memWr (s : State) : exec .memWr s = .next (muWrite (s.reg .mar) (s.reg .mbr) s).2 := rfl

/-! ## The two phases -/

theorem exec_memRd_of_idle (h : s.armed = false) : exec .memRd s = .next { s with armed := true } :=
  exec_memRd_of_muRead_none (muRead_of_idle _ h)

theorem exec_memRd_of_armed (h : s.armed = true) :
    exec .memRd s = .next { s.setReg .mbr (memRead (s.reg .mar) s) with armed := false } :=
  exec_memRd_of_muRead_some (muRead_of_armed _ h)

theorem exec_memWr_of_idle (h : s.armed = false) : exec .memWr s = .next { s with armed := true } := by
  rw [exec_memWr, muWrite_of_idle _ _ h]

theorem exec_memWr_of_armed (h : s.armed = true) :
    exec .memWr s = .next { memWrite (s.reg .mar) (s.reg .mbr) s with armed := false } := by
  rw [exec_memWr, muWrite_of_armed _ _ h]

end

/-! ## The obligations -/

/-- Settles O39: the read row by the outcome of its invocation, the other two rows by definition. -/
theorem memNoneDoesNotInvokeTheUnit : Obligations.MemNoneDoesNotInvokeTheUnit := by
  refine fun rdwr s => ⟨rfl, rfl, exec_memNone rdwr s, ?_, exec_memWr s⟩
  match h : muRead (s.reg .mar) s with
  | (some v, t) => exact exec_memRd_of_muRead_some h
  | (none, t) => exact exec_memRd_of_muRead_none h

/-- Settles O40: phase 2 is a register write of the cell to MBR. -/
theorem memReadLoadsMbrInPhaseTwo : Obligations.MemReadLoadsMbrInPhaseTwo := by
  refine fun s => ⟨rfl, rfl, exec_memRd_of_idle, fun h => ⟨_, exec_memRd_of_armed h, ?_, fun r hr => ?_, rfl, rfl⟩⟩
  · exact reg_setReg_self s .mbr _ readOnly_mbr
  · exact reg_setReg_of_ne s .mbr r _ hr

/-- Settles O41: phase 2 is a raw write, and `cell_put` gives the cells after it. -/
theorem memWriteStoresMbrInPhaseTwo : Obligations.MemWriteStoresMbrInPhaseTwo :=
  fun s => ⟨rfl, rfl, exec_memWr_of_idle, fun h =>
    ⟨_, exec_memWr_of_armed h, rfl, rfl, fun a => cell_put s.mem (s.reg .mar).toNat a (s.reg .mbr)⟩⟩

end Sys2Proof.Machine

/-! SUPPORT. The step row by row is the thirteen lines of R110 in one piece (spec/40_step_sequence.md R110 to R121;
spec/70_reset_and_hazards.md R214). -/

namespace Sys2Proof.Machine

/-! ## The thirteen lines -/

/-- The increment of line 13 on unsigned readings is the increment of an 8-bit word (R119). -/
theorem ofNat_pc_succ (p : Word8) : BitVec.ofNat 8 ((p.toNat + 1) % 256) = p + 1 := by
  apply BitVec.eq_of_toNat_eq
  simp

/-- Line 12 is the memory stage of the rows. -/
theorem line_twelve_eq_memStage (f : Fields) (s : State) :
    (if f.ms then
      if f.rdwr then
        match muRead (s.reg .mar) s with
        | (some v, t) => t.setReg .mbr v
        | (none, t) => t
      else (muWrite (s.reg .mar) (s.reg .mbr) s).2
    else s) = memStage f s := by
  unfold memStage
  cases f.ms with
  | false => rfl
  | true =>
    cases f.rdwr <;> cases h : s.armed
    · rw [muWrite_of_idle _ _ h]; rfl
    · rw [muWrite_of_armed _ _ h]; rfl
    · rw [muRead_of_idle _ h]; rfl
    · rw [muRead_of_armed _ h]; rfl

/-- Lines 11 to 13: a fatal write-back, or the memory stage after the write-back and the increment. -/
theorem r110Tail_eq (f : Fields) (v : Word16) (s : State) :
    r110Tail f v s =
      if writesBack f s && readOnly f.s then raiseReadOnly f.s s
      else .next ((memStage f (if writesBack f s then s.setReg f.s v else s)).setPc (s.pc + 1)) := by
  unfold r110Tail
  change (if writesBack f s && readOnly f.s then _ else _) = _
  split
  · rfl
  · have hpc : (memStage f (if writesBack f s then s.setReg f.s v else s)).pc = s.pc := by
      rw [memStage_pc]
      split <;> rfl
    rw [← ofNat_pc_succ, ← hpc]
    exact congrArg (fun t => Host.Outcome.next (t.setPc (BitVec.ofNat 8 ((t.pc.toNat + 1) % 256))))
      (line_twelve_eq_memStage f _)

/-- The memory stage neither reads nor writes the latches. -/
theorem memStage_datapath (f : Fields) (s : State) (d : Datapath) :
    memStage f { s with datapath := d } = { memStage f s with datapath := d } := by
  unfold memStage
  cases f.ms with
  | false => rfl
  | true => cases f.rdwr <;> cases s.armed <;> rfl

/-- Lines 11 to 13 after the first ten, which leave no latches in R110. -/
theorem r110Tail_afterTen (f : Fields) (s : State) :
    r110Tail f (afterTen f s).datapath.shifted { afterTen f s with datapath := Datapath.idle } =
      if writesBack f s && readOnly f.s then raiseReadOnly f.s (afterTen f s)
      else .next (memStage f (afterWriteBack f s)).endStep := by
  rw [r110Tail_eq]
  change (if writesBack f s && readOnly f.s then _ else _) = _
  split
  · rfl
  · have hwrite : (if writesBack f s then
          ({ afterTen f s with datapath := Datapath.idle } : State).setReg f.s (afterTen f s).datapath.shifted
        else { afterTen f s with datapath := Datapath.idle }) =
        { afterWriteBack f s with datapath := Datapath.idle } := by
      unfold afterWriteBack writesBack
      split <;> rfl
    change Host.Outcome.next ((memStage f (if writesBack f s then _ else _)).setPc ((afterTen f s).pc + 1)) = _
    rw [hwrite, memStage_datapath, State.endStep, memStage_pc, afterWriteBack_pc]
    rfl

/-- Lines 8 to 10 of R110 with the ALU result `r`, up to the latches. -/
theorem r110_lines_eight_to_ten (f : Fields) (s : State) (r : Word16) (hr : r = resultOf f s) :
    r110Tail f (shOp f.sh r)
      (if taken f.cond (decide (r.toInt < 0)) (decide (r.toNat = 0)) then
        { loadMar f s with negative := decide (r.toInt < 0), zero := decide (r.toNat = 0), pc := f.addr }
      else { loadMar f s with negative := decide (r.toInt < 0), zero := decide (r.toNat = 0) }) =
    r110Tail f (afterTen f s).datapath.shifted { afterTen f s with datapath := s.datapath } := by
  have htaken : taken f.cond (decide (r.toInt < 0)) (decide (r.toNat = 0)) = takes f s := by
    rw [hr, ← wordResult_eq]
    exact branches_eq f s
  rw [htaken, hr, shOp_eq, loadMar_eq, ← negativeOf_eq, ← zeroOf_eq]
  unfold afterTen
  cases takes f s <;> rfl

/-- Lines 2 to 10 of the word fetched: the halt, the check of step 5, or the state after ten steps, without latches. -/
theorem r110Step_of_fetch {s : State} {w : Word32} (hrun : s.status = .running) (hfetch : s.fetch = some w) :
    r110Step s =
      if w = 0 then .next s.beginStep
      else if (decodeFields w).ens && readOnly (decodeFields w).s then raiseReadOnly (decodeFields w).s s.beginStep
      else r110Tail (decodeFields w) (afterTen (decodeFields w) s.beginStep).datapath.shifted
        { afterTen (decodeFields w) s.beginStep with datapath := Datapath.idle } := by
  rw [State.fetch] at hfetch
  unfold r110Step
  split
  · next h => cases hrun.symm.trans h
  · split
    · next h => cases hfetch.symm.trans h
    · next v h =>
      obtain rfl : v = w := Option.some.inj (h.symm.trans hfetch)
      exact if_congr Iff.rfl rfl (if_congr Iff.rfl rfl
        (r110_lines_eight_to_ten (decodeFields v) s.beginStep _ (aluOp_eq _ _ _)))

/-- A nonzero word has the same three ends in R110 as row by row. -/
theorem executeFields_eq_r110 (f : Fields) (s : State) :
    executeFields f s =
      if f.ens && readOnly f.s then raiseReadOnly f.s s
      else r110Tail f (afterTen f s).datapath.shifted { afterTen f s with datapath := Datapath.idle } := by
  rw [r110Tail_afterTen]
  rcases executeFields_cases f s with ⟨hens, hro, hend⟩ | ⟨hens, hro, hpol, hend⟩ | ⟨hlawful, hend⟩
  · rw [hend, hens, hro]
    rfl
  · rw [hend, writesBack_of_unconditional f hpol, hens, hro]
    rfl
  · have heleven : ¬(writesBack f s && readOnly f.s) = true := by
      rw [Bool.and_eq_true]
      rintro ⟨hwrites, hro⟩
      exact absurd (hlawful hwrites) (by simp [hro])
    have hfive : ¬(f.ens && readOnly f.s) = true := by
      rw [Bool.and_eq_true]
      rintro ⟨hens, hro⟩
      exact heleven (by simp [writesBack, hens, hro])
    rw [hend, if_neg hfive, if_neg heleven]

/-- Settles O18: the refusals agree by definition, and the word fetched does by `executeFields_eq_r110`. -/
theorem stepIsTheThirteenLinesOfR110 : Obligations.StepIsTheThirteenLinesOfR110 := by
  intro s
  rcases step_eq s with ⟨c, hstatus, hstep⟩ | ⟨hrun, hfetch, hstep⟩ | ⟨w, hrun, hfetch, hstep⟩
  · rw [hstep, r110Step, hstatus]
  · rw [State.fetch] at hfetch
    simp only [hstep, r110Step, hrun, hfetch]
  · rw [hstep, r110Step_of_fetch hrun hfetch, executeWord, executeFields_eq_r110]
    rfl

end Sys2Proof.Machine

/-! SUPPORT. What every step keeps, when there is no step, and the ends of a run: done, halted, aborted
(spec/10_state.md R28, R32, R37; spec/40_step_sequence.md R112, R121; spec/60_exceptions.md R185;
spec/70_reset_and_hazards.md R213 to R216). -/

namespace Sys2Proof.Machine

/-! ## The invariant -/

section
variable {s : State}

/-- The halt keeps the invariant: it only clears the flags (R112). -/
theorem beginStep_inv (h : s.Inv) : s.beginStep.Inv := by
  obtain ⟨hmem, hprog, _, _, hrun⟩ := h
  exact ⟨hmem, hprog, by simp, rfl, hrun⟩

/-- A word that runs to its end keeps the invariant, whatever flags and latches it starts from. -/
theorem memStage_afterWriteBack_endStep_inv (f : Fields) (hmem : Memory.wf s.mem)
    (hprog : s.cfg.prog.length ≤ programCapacity) (hrun : s.status = .running) :
    (memStage f (afterWriteBack f s)).endStep.Inv := by
  refine ⟨memStage_wf f _ ?_, ?_, ?_, rfl, ?_⟩
  · rwa [afterWriteBack_mem]
  · simpa using hprog
  · simpa using not_negative_and_zero (resultOf f s)
  · simpa using hrun

/-- No step changes the program or the policy (R33, R65). -/
theorem step_cfg {t : State} (h : step s = .next t) : t.cfg = s.cfg := by
  rcases step_eq_next h with ⟨_, _, rfl⟩ | ⟨w, _, _, rfl⟩
  · rfl
  · simp

theorem step_inv {t : State} (hinv : s.Inv) (h : step s = .next t) : t.Inv := by
  rcases step_eq_next h with ⟨_, _, rfl⟩ | ⟨w, _, _, rfl⟩
  · exact beginStep_inv hinv
  · obtain ⟨hmem, hprog, _, _, hrun⟩ := hinv
    exact memStage_afterWriteBack_endStep_inv _ hmem hprog hrun

end

/-- Settles O56: the two ends of a step that answers a next state, the halt and the completed word. -/
theorem stepKeepsTheInvariantAndTheProgram : Obligations.StepKeepsTheInvariantAndTheProgram :=
  fun _ _ hinv h => ⟨step_inv hinv h, step_cfg h⟩

/-! ## No step -/

section
variable {s : State}

theorem step_of_aborted {c : Cause} (h : s.status = .aborted c) : step s = .refused (.machineAborted c) := by
  simp [step, controllerStep, h]

/-- An abort is no successful end (R216). -/
theorem final_of_aborted {c : Cause} (h : s.status = .aborted c) : s.final = false := by
  simp [State.final, h]

theorem done_iff_length_le : s.done = true ↔ s.cfg.prog.length ≤ s.pc.toNat := decide_eq_true_iff

theorem step_of_done (hrun : s.status = .running) (hdone : s.done = true) : step s = .refused .programDone := by
  simp [step, controllerStep, hrun, (fetch_eq_none_iff s).mpr hdone]

theorem final_of_done (hrun : s.status = .running) (hdone : s.done = true) : s.final = true := by
  simp [State.final, hrun, hdone]

/-- A fetched word has a meaning, whatever it is: it completes or it aborts (R92, R110). -/
theorem executeWord_ne_refused (w : Word32) (s : State) (r : Refusal) : executeWord w s ≠ .refused r := by
  rw [executeWord]
  split
  · simp
  · rcases executeFields_cases (decodeFields w) s with ⟨_, _, e⟩ | ⟨_, _, _, e⟩ | ⟨_, e⟩ <;> rw [e] <;>
      simp [raiseReadOnly]

end

/-- Settles O19: one clause for each start of a step in `step_eq`. -/
theorem refusedExactlyWhenAbortedOrDone : Obligations.RefusedExactlyWhenAbortedOrDone := by
  refine fun s => ⟨fun c hstatus => ⟨step_of_aborted hstatus, final_of_aborted hstatus⟩, fun hrun hlength => ?_,
    fun r hrefused => ?_⟩
  · have hdone : s.done = true := done_iff_length_le.mpr hlength
    exact ⟨step_of_done hrun hdone, final_of_done hrun hdone⟩
  · rcases step_eq s with ⟨c, hstatus, _⟩ | ⟨_, hfetch, _⟩ | ⟨w, _, _, hstep⟩
    · exact .inl ⟨c, hstatus⟩
    · exact .inr (done_iff_length_le.mp ((fetch_eq_none_iff s).mp hfetch))
    · exact absurd (hstep.symm.trans hrefused) (executeWord_ne_refused w _ r)

/-- Settles O54: `step_eq_fault` gives the cause, and neither abort reaches the memory unit at step 12. -/
theorem abortedMachineHasNoFurtherStep : Obligations.AbortedMachineHasNoFurtherStep := by
  intro s e h
  obtain ⟨w, left, _, hro, hleft, rfl⟩ := step_eq_fault h
  obtain ⟨hmem, harmed, hcfg⟩ : left.mem = s.mem ∧ left.armed = s.armed ∧ left.cfg = s.cfg := by
    rcases hleft with ⟨_, rfl⟩ | ⟨_, _, rfl⟩ <;> exact ⟨rfl, rfl, rfl⟩
  have hstatus := abort_status left (.readOnlyRegisterWrite (decodeFields w).s)
  exact ⟨_, _, rfl, hro, hstatus, hmem, harmed, hcfg, final_of_aborted hstatus, step_of_aborted hstatus⟩

/-! ## The halt -/

/-- A step on the halt word is the flag reset (R112; decision D3). -/
theorem step_of_fetch_zero {s : State} (hrun : s.status = .running) (hfetch : s.fetch = some 0) :
    step s = .next s.beginStep :=
  step_of_fetch hrun hfetch

/-- A halted machine is at a successful end and not done (R215). -/
theorem final_of_fetch_zero {s : State} (hrun : s.status = .running) (hfetch : s.fetch = some 0) :
    s.final = true ∧ s.done = false := by
  have hdone : s.done = false := by
    rw [← Bool.not_eq_true, ← fetch_eq_none_iff, hfetch]
    simp
  exact ⟨by simp [State.final, State.halted, hrun, hfetch], hdone⟩

/-- Settles O21: the state after the halt is `beginStep`, which fetches the same word and is its own `beginStep`. -/
theorem haltWordIsAFixedPoint : Obligations.HaltWordIsAFixedPoint := by
  intro s hrun hfetch
  have hend := final_of_fetch_zero (s := s.beginStep) hrun hfetch
  exact ⟨s.beginStep, step_of_fetch_zero hrun hfetch, rfl, rfl, beginStep_reg s, rfl, rfl, rfl, hrun, rfl,
    hend.1, hend.2, step_of_fetch_zero (s := s.beginStep) hrun hfetch⟩

/-! ## What a step does not read -/

/-- The flag reset of step 1 leaves nothing of the old flags and latches (R28, R111). -/
theorem beginStep_of_flags_and_datapath (s : State) (d : Datapath) (n z : Bool) :
    ({ s with datapath := d, negative := n, zero := z } : State).beginStep = s.beginStep := rfl

/-- Settles O58: what follows the choice of the word starts from `beginStep`. -/
theorem stepIgnoresOldDatapathAndFlags : Obligations.StepIgnoresOldDatapathAndFlags := by
  intro s d n z
  rcases step_eq s with ⟨c, hstatus, hstep⟩ | ⟨hrun, hfetch, hstep⟩ | ⟨w, hrun, hfetch, hstep⟩
  · rw [hstep]
    exact step_of_aborted hstatus
  · rw [hstep]
    exact step_of_done hrun ((fetch_eq_none_iff s).mp hfetch)
  · rw [hstep, ← beginStep_of_flags_and_datapath s d n z]
    exact step_of_fetch hrun hfetch

end Sys2Proof.Machine

/-! SUPPORT. The canonical memory is one list for each content of the cells (spec/20_memory.md R54; log entry 3). -/

namespace Sys2Proof.Machine

theorem wf_cons (p : Nat × Word16) (m : Memory) :
    Memory.wf (p :: m) ↔ (∀ q ∈ m, p.1 < q.1) ∧ p.1 < memoryCells ∧ p.2 ≠ 0 ∧ Memory.wf m := by
  simp only [Memory.wf, List.pairwise_cons, List.forall_mem_cons]
  tauto

theorem cell_cons_self (p : Nat × Word16) (m : Memory) : Memory.cell (p :: m) p.1 = p.2 := if_pos rfl

theorem cell_cons_of_ne {p : Nat × Word16} {a : Nat} (h : p.1 ≠ a) (m : Memory) :
    Memory.cell (p :: m) a = Memory.cell m a := if_neg h

/-- Below the first address of a sorted memory every cell is zero. -/
theorem cell_eq_zero_of_lt {m : Memory} {a : Nat} (h : ∀ q ∈ m, a < q.1) : Memory.cell m a = 0 := by
  induction m with
  | nil => rfl
  | cons q rest ih =>
    rw [List.forall_mem_cons] at h
    rw [cell_cons_of_ne (Nat.ne_of_gt h.1), ih h.2]

/-- The first address of a canonical memory is the first cell that is not zero, so it is no higher than that of any
memory with the same cells. -/
theorem head_le_of_cell_eq {p q : Nat × Word16} {m n : Memory} (hp : p.2 ≠ 0) (hn : ∀ x ∈ n, q.1 < x.1)
    (h : ∀ a, Memory.cell (p :: m) a = Memory.cell (q :: n) a) : q.1 ≤ p.1 := by
  by_contra hlt
  rw [Nat.not_le] at hlt
  have hzero : Memory.cell (q :: n) p.1 = 0 :=
    cell_eq_zero_of_lt (List.forall_mem_cons.mpr ⟨hlt, fun x hx => Nat.lt_trans hlt (hn x hx)⟩)
  exact hp (by rw [← cell_cons_self p m, h, hzero])

/-- A memory with a listed entry has a cell that is not zero. -/
theorem not_cell_eq_nil {p : Nat × Word16} {m : Memory} (hp : p.2 ≠ 0) :
    ¬∀ a, Memory.cell (p :: m) a = Memory.cell [] a := fun h =>
  hp (by rw [← cell_cons_self p m, h]; rfl)

/-- Settles O12, by induction on both lists: the first entries are the lowest cells that are not zero, so they agree,
and the rests have the same cells. -/
theorem canonicalMemoryIsDeterminedByItsCells : Obligations.CanonicalMemoryIsDeterminedByItsCells := by
  intro m
  induction m with
  | nil =>
    intro n _ hn h
    cases n with
    | nil => rfl
    | cons q n =>
      obtain ⟨_, _, hq, _⟩ := (wf_cons q n).mp hn
      exact absurd (fun a => (h a).symm) (not_cell_eq_nil hq)
  | cons p m ih =>
    intro n hm hn h
    obtain ⟨hpm, _, hp, hm⟩ := (wf_cons p m).mp hm
    cases n with
    | nil => exact absurd h (not_cell_eq_nil hp)
    | cons q n =>
      obtain ⟨hqn, _, hq, hn⟩ := (wf_cons q n).mp hn
      have haddr : p.1 = q.1 :=
        Nat.le_antisymm (head_le_of_cell_eq hq hpm fun a => (h a).symm) (head_le_of_cell_eq hp hqn h)
      have hvalue : p.2 = q.2 := by rw [← cell_cons_self p m, h, haddr, cell_cons_self]
      have hrest : ∀ a, Memory.cell m a = Memory.cell n a := fun a => by
        by_cases ha : p.1 = a
        · rw [← ha, cell_eq_zero_of_lt hpm, haddr, cell_eq_zero_of_lt hqn]
        · rw [← cell_cons_of_ne ha m, h, cell_cons_of_ne (haddr ▸ ha)]
      rw [Prod.ext haddr hvalue, ih n hm hn hrest]

end Sys2Proof.Machine

/-! SUPPORT. Words of the spec's decode vectors, the reset state, construction, and the supply of a word
(spec/95_test_vectors.md V2; spec/10_state.md R34, R37, R40; spec/60_exceptions.md R183; log entry 1). -/

namespace Sys2Proof.Machine

/-- Settles O6: each word by evaluating its decoder. -/
theorem specWordsDecodeAsListed : Obligations.SpecWordsDecodeAsListed :=
  ⟨by decide, by decide, by decide, by decide⟩

/-! ## The reset state -/

theorem reset_reg_of_writable {r : Reg} (h : readOnly r = false) : State.reset.reg r = 0x0000 := by
  cases r
  case zero | one | mone => cases h
  all_goals rfl

/-- Settles O7: the constants by the register file's rules, the rest by R40. -/
theorem resetLeavesTheListedValues : Obligations.ResetLeavesTheListedValues :=
  ⟨reg_zero _, reg_one _, reg_mone _, fun _ => reset_reg_of_writable, rfl, rfl, rfl, fun _ => rfl, rfl, rfl, rfl,
    rfl⟩

/-- The reset state of a machine with any program that fits has the invariant. -/
theorem reset_with_cfg_inv {c : Config} (h : c.prog.length ≤ programCapacity) :
    ({ State.reset with cfg := c } : State).Inv :=
  ⟨reset_mem_wf, h, by simp [State.reset], rfl, rfl⟩

/-- Settles O55: the empty program fits. -/
theorem resetHasTheInvariant : Obligations.ResetHasTheInvariant :=
  reset_with_cfg_inv (c := Config.default) (Nat.zero_le _)

/-! ## Construction -/

section
variable {prog : List Word32} (policy : WbPolicy)

theorem construct_of_lt (h : programCapacity < prog.length) : construct prog policy = .fault .constructionError :=
  if_pos h

theorem construct_of_le (h : prog.length ≤ programCapacity) :
    construct prog policy = .next { State.reset with cfg := { prog := prog, wbPolicy := policy } } :=
  if_neg (Nat.not_lt.mpr h)

end

/-- A machine at index 0 is done exactly when it has no program (R37). -/
theorem done_of_pc_zero {s : State} (h : s.pc = 0) : s.done = true ↔ s.cfg.prog = [] := by
  rw [done_iff_length_le, h]
  simp

/-- The program counter cannot leave a program that fills the store (R37). -/
theorem not_done_of_full {s : State} (h : s.cfg.prog.length = 256) : s.done = false := by
  rw [← Bool.not_eq_true, done_iff_length_le, h, Nat.not_le]
  exact s.pc.isLt

/-- Settles O8: the two outcomes of `construct`, and the bound of an 8-bit program counter. -/
theorem constructionTakesUpTo256Words : Obligations.ConstructionTakesUpTo256Words := by
  intro prog policy
  refine ⟨construct_of_lt policy, fun h => ?_, fun s hprog hlength => not_done_of_full (hprog ▸ hlength)⟩
  exact ⟨_, construct_of_le policy h, rfl, rfl, fun _ => rfl, rfl, rfl, rfl, fun _ => rfl, rfl, rfl,
    reset_with_cfg_inv h, done_of_pc_zero rfl⟩

/-! ## The supply of a word -/

section
variable (s : State)

/-- A number below 2^32 is a whole word, of which nothing is cut off (R83). -/
theorem withFetchWord_eq_supplyWord {w : Nat} (h : w < 2 ^ 32) :
    s.withFetchWord 32 w = supplyWord (BitVec.ofNat 32 w) s := by
  rw [State.withFetchWord, Nat.mod_eq_of_lt h]

theorem supplyWord_prog (w : Word32) : (supplyWord w s).cfg.prog = placeWord s.cfg.prog s.pc.toNat w := rfl

theorem fetch_supplyWord (w : Word32) : (supplyWord w s).fetch = some w := by
  change (placeWord s.cfg.prog s.pc.toNat w)[s.pc.toNat]? = _
  rw [placeWord_getElem?, if_pos rfl]

end

/-- Settles O59: index by index, the program is what `placeWord` makes, and `pc` still points at the word. -/
theorem suppliedWordRunsNext : Obligations.SuppliedWordRunsNext := by
  intro s w hw
  rw [withFetchWord_eq_supplyWord s hw]
  refine ⟨step_of_fetch rfl (fetch_supplyWord s _), fetch_supplyWord s _, fun i hi hne => ?kept, fun i hi hlt => ?gap,
    placeWord_length _ _ _, rfl⟩
  case kept => rw [supplyWord_prog, placeWord_getElem?, if_neg hne, if_pos hi]
  case gap =>
    rw [supplyWord_prog, placeWord_getElem?, if_neg (Nat.ne_of_lt hlt), if_neg (Nat.not_lt.mpr hi), if_pos hlt]

end Sys2Proof.Machine

/-! SUPPORT. The frames of the rows: which part of the state each group of rows changes, and so what it leaves
(spec/40_step_sequence.md R112, R114, R115; spec/41_alu.md; spec/43_branch.md; spec/44_writeback.md R162, R163;
spec/45_memory_ops.md R170 to R172). -/

namespace Sys2Proof.Machine

section
variable {s t : State}

/-! ## The rows that write no register and no cell -/

/-- A row that only steers the datapath, or does nothing, changes the latches alone. -/
theorem exec_selecting_row {a : Reg} {addr : Word8} {x : Bool} {i : Instr}
    (hi : i ∈ [.amuxAbus a, .amuxMar a, .shNone, .shLsh, .shRsh, .shSpare3, .marldOff, .condNone addr, .memNone x,
      .mbrf0, .mbrf1])
    (h : exec i s = .next t) : ∃ d, t = { s with datapath := d } := by
  simp only [List.mem_cons, List.not_mem_nil, or_false] at hi
  rcases hi with rfl | rfl | rfl | rfl | rfl | rfl | rfl | rfl | rfl | rfl | rfl <;> cases h <;> exact ⟨_, rfl⟩

/-- An ALU row and the halt change the flags and the latches alone. -/
theorem exec_alu_or_halt_row {b : Reg} {i : Instr} (hi : i ∈ [.aluPass b, .aluAdd b, .aluAnd b, .aluNot b, .halt])
    (h : exec i s = .next t) : ∃ n z d, t = { s with negative := n, zero := z, datapath := d } := by
  simp only [List.mem_cons, List.not_mem_nil, or_false] at hi
  rcases hi with rfl | rfl | rfl | rfl | rfl <;> cases h <;> exact ⟨_, _, _, rfl⟩

/-- A branching row, taken or not, changes `pc` alone. -/
theorem exec_branch_row {addr : Word8} {i : Instr} (hi : i ∈ [.condJn addr, .condJz addr, .condGoto addr])
    (h : exec i s = .next t) : ∃ pc, t = { s with pc := pc } := by
  simp only [List.mem_cons, List.not_mem_nil, or_false] at hi
  rcases hi with rfl | rfl | rfl <;> cases h
  · exact ⟨_, ite_setPc_eq s.negative addr s⟩
  · exact ⟨_, ite_setPc_eq s.zero addr s⟩
  · exact ⟨addr, rfl⟩

/-! ## The rows that write a register -/

/-- A constant reads alike in every state (R22). -/
theorem reg_of_readOnly {r : Reg} (h : readOnly r = true) (s t : State) : t.reg r = s.reg r := by
  cases r
  case zero | one | mone => rfl
  all_goals cases h

theorem exec_wbOff_of_gated (d : Reg) (h : s.cfg.wbPolicy = .gated) : exec (.wbOff d) s = .next s := by
  change execWbOff d s = _
  rw [execWbOff, h]

theorem exec_wbOff_of_unconditional (d : Reg) (h : s.cfg.wbPolicy = .unconditional) :
    exec (.wbOff d) s = exec (.wbOn d) s := by
  change execWbOff d s = _
  rw [execWbOff, h]
  rfl

/-- A checked write that passes has written its slot. -/
theorem writeReg_eq_next {d : Reg} {v : Word16} (h : writeReg d v s = .next t) : t = s.setReg d v := by
  rcases writeReg_eq d v s with ⟨_, e⟩ | ⟨_, e⟩ <;> rw [h] at e <;> cases e
  rfl

/-- A row that writes a register writes its own destination, or, as WB.OFF under `gated`, nothing. -/
theorem exec_register_row {b d : Reg} {i : Instr} (hi : (i = .marldOn b ∧ d = .mar) ∨ i = .wbOn d ∨ i = .wbOff d)
    (h : exec i s = .next t) : (∃ v, t = s.setReg d v) ∨ t = s := by
  rcases hi with ⟨rfl, rfl⟩ | rfl | rfl
  · cases h
    exact .inl ⟨_, rfl⟩
  · exact .inl ⟨_, writeReg_eq_next h⟩
  · cases hpol : s.cfg.wbPolicy with
    | gated =>
      rw [exec_wbOff_of_gated d hpol] at h
      cases h
      exact .inr rfl
    | unconditional =>
      rw [exec_wbOff_of_unconditional d hpol] at h
      exact .inl ⟨_, writeReg_eq_next h⟩

end

/-! ## The obligations -/

/-- Settles O22: the row is the flag reset of step 1. -/
theorem haltRowClearsOnlyTheFlags : Obligations.HaltRowClearsOnlyTheFlags := exec_halt

/-- Settles O38: nothing under `gated`; under `unconditional` WB.ON, and its fatal write. -/
theorem wbOffFollowsThePolicy : Obligations.WbOffFollowsThePolicy := by
  refine fun d s => ⟨exec_wbOff_of_gated d, fun hpol hd => ?_, fun hpol hd => ?_⟩
  · obtain ⟨_, _, hwrite, _⟩ := wbOnWritesTheShiftedValue d s
    rw [exec_wbOff_of_unconditional d hpol]
    exact hwrite hd
  · rw [exec_wbOff_of_unconditional d hpol, exec_wbOn, writeReg_of_readOnly hd]
    rfl

/-- Settles O43: only the latches change. -/
theorem frameOfTheSelectingRows : Obligations.FrameOfTheSelectingRows := by
  intro a addr x i s t hi h
  obtain ⟨d, rfl⟩ := exec_selecting_row hi h
  exact ⟨fun _ => rfl, rfl, rfl, rfl, fun _ => rfl, rfl, rfl, rfl⟩

/-- Settles O44: only the flags and the latches change. -/
theorem frameOfTheAluRowsAndHalt : Obligations.FrameOfTheAluRowsAndHalt := by
  intro b i s t hi h
  obtain ⟨n, z, d, rfl⟩ := exec_alu_or_halt_row hi h
  exact ⟨fun _ => rfl, rfl, fun _ => rfl, rfl, rfl, rfl⟩

/-- Settles O45: only `pc` changes. -/
theorem frameOfTheBranchRows : Obligations.FrameOfTheBranchRows := by
  intro addr i s t hi h
  obtain ⟨pc, rfl⟩ := exec_branch_row hi h
  exact ⟨fun _ => rfl, rfl, rfl, fun _ => rfl, rfl, rfl, rfl⟩

/-- Settles O46: only the destination is written, and a constant reads alike in every state. -/
theorem frameOfTheRegisterRows : Obligations.FrameOfTheRegisterRows := by
  intro b d i s t hi h
  rcases exec_register_row hi h with ⟨v, rfl⟩ | rfl
  · exact ⟨fun r hr => reg_setReg_of_ne s d r v hr, fun r hr => reg_of_readOnly hr s _, rfl, rfl, rfl, fun _ => rfl,
      rfl, rfl, rfl⟩
  · exact ⟨fun _ _ => rfl, fun _ _ => rfl, rfl, rfl, rfl, fun _ => rfl, rfl, rfl, rfl⟩

/-- Settles O47: one case for each phase of each row; phase 1 sets `armed` alone. -/
theorem frameOfTheMemoryRows : Obligations.FrameOfTheMemoryRows := by
  intro s t
  cases harmed : s.armed with
  | false =>
    rw [exec_memRd_of_idle harmed, exec_memWr_of_idle harmed]
    refine ⟨fun h => ?_, fun h => ?_⟩ <;> cases h
    · exact ⟨fun _ _ => rfl, fun _ => rfl, fun _ => rfl, rfl, rfl, rfl, rfl, rfl⟩
    · exact ⟨fun _ => rfl, fun _ _ _ _ => rfl, fun _ _ => rfl, rfl, rfl, rfl, rfl, rfl⟩
  | true =>
    rw [exec_memRd_of_armed harmed, exec_memWr_of_armed harmed]
    refine ⟨fun h => ?_, fun h => ?_⟩ <;> cases h
    · exact ⟨fun r hr => reg_setReg_of_ne s .mbr r _ hr, nofun, fun _ => rfl, rfl, rfl, rfl, rfl, rfl⟩
    · refine ⟨fun _ => rfl, fun a ha x hx => ?_, nofun, rfl, rfl, rfl, rfl, rfl⟩
      subst ha
      exact (cell_put s.mem _ x _).trans (if_neg hx)

end Sys2Proof.Machine
